-- ==== Sys2Proof/Word.lean ====
section
/-! DEFINITION. Word.lean: the word types of the CORE (00_scope.md rules R6, R8, R9). -/

namespace Sys2Proof

/-- A general register or the program counter: a 64-bit pattern (`XLEN`, `PCLEN`, rule R6). Its unsigned
reading `u(v)` is `BitVec.toNat`, its signed reading `s(v)` is `BitVec.toInt` (rule R9). -/
abbrev Word := BitVec 64

/-- One cell of data memory, 8 bits (rule R33). -/
abbrev Byte := BitVec 8

/-- An instruction word `insn[31:0]` (rule R94). -/
abbrev InsnWord := BitVec 32

/-- A register index 0 to 31 (rule R21); index 31 is the zero register (rule R22). -/
abbrev RegIndex := Fin 32

/-- A line of assembly text as its characters (rule R110). -/
abbrev AsmLine := List Char

end Sys2Proof
end

