-- ==== Sys2Proof/Config.lean ====
section
/-! DEFINITION. Config.lean: the implementation parameters of 00_scope.md rule R6, and the two values
this model names where the spec leaves the launch contents open (assumption log 1 and 2). -/

namespace Sys2Proof

/-- A closed interval of integers: the range of an immediate. -/
structure ImmRange where
  lo : Int
  hi : Int
  deriving DecidableEq, Repr

/-- `lo <= k <= hi`. -/
def ImmRange.contains (r : ImmRange) (k : Int) : Bool := decide (r.lo ≤ k) && decide (k ≤ r.hi)

namespace Config

/-- `ZERO_REG`: the index wired to zero, and so the number of register slots that hold a value
(rules R6, R22). -/
abbrev zeroReg : Nat := 31

/-- `NREGS`: register indices are 0 to 31 (rule R6). -/
abbrev numRegs : Nat := 32

/-- `MEMSIZE`: data memory has the cells 0 to 255 (rules R6, R33). -/
abbrev memSize : Nat := 256

/-- `ILEN`: bytes of program-counter space one instruction occupies (rules R6, R90). -/
abbrev ilen : Nat := 4

/-- The upper bound on `PROGLEN` (rule R6; the spec's decision D4). -/
abbrev maxProgLen : Nat := 2 ^ 32

/-- `IMM_I`: ADDI, SUBI (rule R6). -/
def immI : ImmRange := ⟨0, 4095⟩

/-- `IMM_D`: LDUR, STUR (rule R6). -/
def immD : ImmRange := ⟨-256, 255⟩

/-- `IMM_CB`: CBZ, CBNZ (rule R6). -/
def immCB : ImmRange := ⟨-262144, 262143⟩

/-- `IMM_B`: B (rule R6). -/
def immB : ImmRange := ⟨-33554432, 33554431⟩

/-- DESIGN CHOICE (log 1, unsafe): what `State.reset` puts in X0 to X30, whose reset value rule R50 leaves
unspecified. -/
def resetRegister : Word := 0

/-- DESIGN CHOICE (log 2, unsafe): what a byte of data memory that nothing has written reads as; rule R50
leaves the launch contents unspecified and says that reading them is no fault. -/
def unlistedByte : Byte := 0

end Config

end Sys2Proof
end

