-- ==== Sys2Proof/Syntax.lean ====
section
/-! DEFINITION. Syntax.lean: the Instruction Catalog (30_encoding.md rule R91) and the decoded
instruction (rule R92), one constructor per row of the opcode table. -/

namespace Sys2Proof

/-- The five classes of rule R91. -/
inductive OpClass where
  | register | immediate | memory | branch | condBranch
  deriving DecidableEq, Repr

/-- The nine opcodes of rule R91; the set is closed. -/
inductive Opcode where
  | add | sub | addi | subi | ldur | stur | b | cbz | cbnz
  deriving DecidableEq, Repr

/-- The class of an opcode (rule R91). -/
def Opcode.cls : Opcode → OpClass
  | .add => .register
  | .sub => .register
  | .addi => .immediate
  | .subi => .immediate
  | .ldur => .memory
  | .stur => .memory
  | .b => .branch
  | .cbz => .condBranch
  | .cbnz => .condBranch

/-- The one table of immediate ranges, used by the validator and by the engine alike (rules R91, R125). -/
def OpClass.immRange : OpClass → Option ImmRange
  | .register => none
  | .immediate => some Config.immI
  | .memory => some Config.immD
  | .branch => some Config.immB
  | .condBranch => some Config.immCB

/-- A decoded instruction (rule R92). Register operands are numbers and immediates integers of any size, so
that the engine's own checks (rules R150, R160, R170, R180, R210) have something to refuse; the ranges of
rule R92 are `Instr.wellFormed` (log 11). -/
inductive Instr where
  /-- `ADD Xd, Xn, Xm` (rule R141). -/
  | add (d n m : Nat)
  /-- `SUB Xd, Xn, Xm` (rule R142). -/
  | sub (d n m : Nat)
  /-- `ADDI Xd, Xn, #imm` (rule R151). -/
  | addi (d n : Nat) (imm : Int)
  /-- `SUBI Xd, Xn, #imm` (rule R152). -/
  | subi (d n : Nat) (imm : Int)
  /-- `LDUR Xt, [Xn, #imm]` (rule R163). -/
  | ldur (t n : Nat) (imm : Int)
  /-- `STUR Xt, [Xn, #imm]` (rule R164). -/
  | stur (t n : Nat) (imm : Int)
  /-- `B #imm` (rule R171). -/
  | b (imm : Int)
  /-- `CBZ Xt, #imm` (rule R181). -/
  | cbz (t : Nat) (imm : Int)
  /-- `CBNZ Xt, #imm` (rule R182). -/
  | cbnz (t : Nat) (imm : Int)
  deriving DecidableEq, Repr

namespace Instr

/-- The opcode of a decoded instruction. -/
def opcode : Instr → Opcode
  | .add _ _ _ => .add
  | .sub _ _ _ => .sub
  | .addi _ _ _ => .addi
  | .subi _ _ _ => .subi
  | .ldur _ _ _ => .ldur
  | .stur _ _ _ => .stur
  | .b _ => .b
  | .cbz _ _ => .cbz
  | .cbnz _ _ => .cbnz

/-- The register operands in source order (rule R91, column "operands, in source order"). -/
def regs : Instr → List Nat
  | .add d n m => [d, n, m]
  | .sub d n m => [d, n, m]
  | .addi d n _ => [d, n]
  | .subi d n _ => [d, n]
  | .ldur t n _ => [t, n]
  | .stur t n _ => [t, n]
  | .b _ => []
  | .cbz t _ => [t]
  | .cbnz t _ => [t]

/-- The immediate operand, if the class has one (rule R91). -/
def imm? : Instr → Option Int
  | .add _ _ _ => none
  | .sub _ _ _ => none
  | .addi _ _ imm => some imm
  | .subi _ _ imm => some imm
  | .ldur _ _ imm => some imm
  | .stur _ _ imm => some imm
  | .b imm => some imm
  | .cbz _ imm => some imm
  | .cbnz _ imm => some imm

end Instr

end Sys2Proof
end

