-- ==== Sys2Proof/WellFormed.lean ====
section
/-! DEFINITION. WellFormed.lean: the range of every field of a decoded instruction (30_encoding.md rule R92). -/

namespace Sys2Proof.Instr

/-- Every register operand is an index 0 to 31 (rule R92). -/
def regsOk (i : Instr) : Bool := i.regs.all fun r => decide (r < Config.numRegs)

/-- The immediate lies in the range of its class (rules R92, R125). -/
def immOk (i : Instr) : Bool :=
  match i.imm?, i.opcode.cls.immRange with
  | some k, some r => r.contains k
  | some _, none => false
  | none, _ => true

/-- "A decoded instruction is *well-formed* when every field lies in the range shown" (rule R92). -/
def wellFormed (i : Instr) : Bool := i.regsOk && i.immOk

end Sys2Proof.Instr
end

