-- ==== Sys2Proof/Decode.lean ====
section
/-! DEFINITION. Decode.lean: the instruction word (30_encoding.md rules R94 to R106), its total decoder and
its encoder. The bit values are the spec's decisions D1, D2, D3 (log 6). -/

namespace Sys2Proof

/-- What the decoders reject, both under the one name `MalformedInstruction` (alias `SyntaxError`, rule R201):
an instruction word (rule R103) or a line of text (rules R111, R120). -/
inductive Malformed where
  | word (w : InsnWord)
  | line (text : AsmLine)
  deriving DecidableEq, Repr

namespace Opcode

/-- Every opcode, in the order of the table of rule R100. -/
def all : List Opcode := [.add, .sub, .addi, .subi, .ldur, .stur, .b, .cbz, .cbnz]

/-- Column `mask` of rule R100. -/
def mask : Opcode → InsnWord
  | .add => 0xFFE0FC00
  | .sub => 0xFFE0FC00
  | .addi => 0xFFC00000
  | .subi => 0xFFC00000
  | .ldur => 0xFFE00C00
  | .stur => 0xFFE00C00
  | .b => 0xFC000000
  | .cbz => 0xFF000000
  | .cbnz => 0xFF000000

/-- Column `match` of rule R100. -/
def pattern : Opcode → InsnWord
  | .add => 0x8B000000
  | .sub => 0xCB000000
  | .addi => 0x91000000
  | .subi => 0xD1000000
  | .ldur => 0xF8400000
  | .stur => 0xF8000000
  | .b => 0x14000000
  | .cbz => 0xB4000000
  | .cbnz => 0xB5000000

/-- "a word `w` is the instruction of a row iff `w & mask == match`" (rule R100). -/
def isRowOf (op : Opcode) (w : InsnWord) : Bool := w &&& op.mask == op.pattern

end Opcode

/-- The register fields of rules R95 to R99: `insn[4:0]`, `insn[9:5]`, `insn[20:16]`. -/
def fieldRd (w : InsnWord) : Nat := (w.extractLsb' 0 5).toNat
@[inherit_doc fieldRd] def fieldRn (w : InsnWord) : Nat := (w.extractLsb' 5 5).toNat
@[inherit_doc fieldRd] def fieldRm (w : InsnWord) : Nat := (w.extractLsb' 16 5).toNat

/-- The immediate fields of rule R101: `imm12` is unsigned, the other three are sign-extended. -/
def fieldImm12 (w : InsnWord) : Int := (w.extractLsb' 10 12).toNat
@[inherit_doc fieldImm12] def fieldImm9 (w : InsnWord) : Int := (w.extractLsb' 12 9).toInt
@[inherit_doc fieldImm12] def fieldImm26 (w : InsnWord) : Int := (w.extractLsb' 0 26).toInt
@[inherit_doc fieldImm12] def fieldImm19 (w : InsnWord) : Int := (w.extractLsb' 5 19).toInt

/-- The decoded instruction of a word that is a row of `op` (the right-hand sides of rule R105). -/
def operandsOf (op : Opcode) (w : InsnWord) : Instr :=
  match op with
  | .add => .add (fieldRd w) (fieldRn w) (fieldRm w)
  | .sub => .sub (fieldRd w) (fieldRn w) (fieldRm w)
  | .addi => .addi (fieldRd w) (fieldRn w) (fieldImm12 w)
  | .subi => .subi (fieldRd w) (fieldRn w) (fieldImm12 w)
  | .ldur => .ldur (fieldRd w) (fieldRn w) (fieldImm9 w)
  | .stur => .stur (fieldRd w) (fieldRn w) (fieldImm9 w)
  | .b => .b (fieldImm26 w)
  | .cbz => .cbz (fieldRd w) (fieldImm19 w)
  | .cbnz => .cbnz (fieldRd w) (fieldImm19 w)

/-- `word_decode`, the total decoder of instruction words (rule R105). A word that matches no row is rejected
by name (rule R103); the order of the rows does not matter (rule R100). -/
def decode (w : InsnWord) : Except Malformed Instr :=
  match Opcode.all.find? (·.isRowOf w) with
  | some op => .ok (operandsOf op w)
  | none => .error (.word w)

/-- `v` shifted to the field whose lowest bit is `lo` (rule R106). -/
def placeField {k : Nat} (v : BitVec k) (lo : Nat) : InsnWord := v.setWidth 32 <<< lo

/-- `word_encode` (rule R106), for well-formed instructions: `match(op)` with each operand's bits in its field;
`imm mod 2^k` is the `k`-bit two's-complement pattern of `imm`. -/
def encode (i : Instr) : InsnWord :=
  let reg (r : Nat) : BitVec 5 := BitVec.ofNat 5 r
  match i with
  | .add d n m => i.opcode.pattern ||| placeField (reg m) 16 ||| placeField (reg n) 5 ||| placeField (reg d) 0
  | .sub d n m => i.opcode.pattern ||| placeField (reg m) 16 ||| placeField (reg n) 5 ||| placeField (reg d) 0
  | .addi d n imm => i.opcode.pattern ||| placeField (BitVec.ofInt 12 imm) 10 ||| placeField (reg n) 5 ||| placeField (reg d) 0
  | .subi d n imm => i.opcode.pattern ||| placeField (BitVec.ofInt 12 imm) 10 ||| placeField (reg n) 5 ||| placeField (reg d) 0
  | .ldur t n imm => i.opcode.pattern ||| placeField (BitVec.ofInt 9 imm) 12 ||| placeField (reg n) 5 ||| placeField (reg t) 0
  | .stur t n imm => i.opcode.pattern ||| placeField (BitVec.ofInt 9 imm) 12 ||| placeField (reg n) 5 ||| placeField (reg t) 0
  | .b imm => i.opcode.pattern ||| placeField (BitVec.ofInt 26 imm) 0
  | .cbz t imm => i.opcode.pattern ||| placeField (BitVec.ofInt 19 imm) 5 ||| placeField (reg t) 0
  | .cbnz t imm => i.opcode.pattern ||| placeField (BitVec.ofInt 19 imm) 5 ||| placeField (reg t) 0

/-- The instruction word whose low `nbits` bits are those of `w`, the bits above them 0: an instruction of
this machine is one whole 32-bit word (rules R90, R94) and the program space has no byte order
(20_memory.md rule R62), so bit `k` of the table is bit `k` of the word. -/
def tableWord (nbits w : Nat) : InsnWord := BitVec.ofNat 32 (w % 2 ^ nbits)

/-- The decoder's answer on a row of the opcode table, its bits numbered as the table numbers them. -/
def decodeTableWord (nbits w : Nat) : Option Instr :=
  match decode (tableWord nbits w) with
  | .ok i => some i
  | .error _ => none

end Sys2Proof
end

