-- ==== Sys2Proof/Machine/Assembly.lean ====
section
/-! DEFINITION. Assembly.lean: the source's instruction form (30_encoding.md rules R110 to R126): the
Instruction Parser, the Format Validator, `asm_decode`, and the canonical text of an instruction. -/

namespace Sys2Proof.Asm

/-- A token of a line once blanks are gone (rule R114). -/
inductive Token where
  | word (cs : List Char)
  | comma
  | lbracket
  | rbracket
  deriving DecidableEq, Repr

/-- "any run of spaces or tabs separates tokens" (decision D14; log 10). -/
def isBlank (c : Char) : Bool := c == ' ' || c == '\t'

/-- The separators that are tokens of the class grammars (rules R114 to R119). -/
def separator? (c : Char) : Option Token :=
  if c == ',' then some .comma
  else if c == '[' then some .lbracket
  else if c == ']' then some .rbracket
  else none

/-- Put the pending word, if any, before the tokens that follow it. -/
def flush (pending : List Char) (rest : List Token) : List Token :=
  if pending.isEmpty then rest else .word pending :: rest

/-- Cut a line into tokens; `pending` is the word being read. -/
def lexFrom (pending : List Char) : AsmLine → List Token
  | [] => flush pending []
  | c :: cs =>
    if isBlank c then flush pending (lexFrom [] cs)
    else
      match separator? c with
      | some t => flush pending (t :: lexFrom [] cs)
      | none => lexFrom (pending ++ [c]) cs

/-- The tokens of a line, in upper case: opcode recognition is case-insensitive (rule R111) and operands are
"normalized to upper case for register names" (rule R112); an immediate has no letters. -/
def lex (line : AsmLine) : List Token := lexFrom [] (line.map Char.toUpper)

/-- The mnemonic of an opcode, in upper case (rule R91). -/
def mnemonic : Opcode → List Char
  | .add => ['A', 'D', 'D']
  | .sub => ['S', 'U', 'B']
  | .addi => ['A', 'D', 'D', 'I']
  | .subi => ['S', 'U', 'B', 'I']
  | .ldur => ['L', 'D', 'U', 'R']
  | .stur => ['S', 'T', 'U', 'R']
  | .b => ['B']
  | .cbz => ['C', 'B', 'Z']
  | .cbnz => ['C', 'B', 'N', 'Z']

/-- "The opcode must be one of the nine of rule R91" (rule R111). -/
def opcodeOf (word : List Char) : Option Opcode := Opcode.all.find? fun op => mnemonic op == word

/-- Decimal digits of a number, without leading zeros. -/
def digits (n : Nat) : List Char := Nat.toDigits 10 n

/-- The number written by decimal digits; `none` where there is no digit, a character that is none, or a
superfluous leading zero (rules R112, R113; decision D14). -/
def number? (cs : List Char) : Option Nat :=
  if cs.isEmpty || !cs.all Char.isDigit || (cs.head? == some '0' && decide (1 < cs.length)) then none
  else some (Nat.ofDigitChars 10 cs 0)

/-- A register token: `X0` to `X31`, or `XZR`, which is index 31 (rule R112). -/
def registerToken? (tok : List Char) : Option RegIndex :=
  match tok with
  | ['X', 'Z', 'R'] => some 31
  | 'X' :: cs =>
    match number? cs with
    | some k => if h : k < 32 then some ⟨k, h⟩ else none
    | none => none
  | _ => none

/-- An immediate token: `#`, an optional `-`, digits; `#-0` is refused (rule R113; decision D14). -/
def immediateToken? (tok : List Char) : Option Int :=
  match tok with
  | '#' :: '-' :: cs =>
    match number? cs with
    | some 0 => none
    | some (k + 1) => some (-(k + 1 : Nat))
    | none => none
  | '#' :: cs => (number? cs).map Int.ofNat
  | _ => none

/-- The Instruction Parser `decode(line) -> (opcode, operands)`: the opcode and the raw operand tokens in source
order, all separators stripped (rule R121); it fails where the opcode is not recognised. DESIGN CHOICE (log 24): it
never reports a missing operand itself; rule R121 lets that be deferred to the Format Validator, and the shape check and
the resolution of `asmDecode` make it. -/
def parse (line : AsmLine) : Except Malformed (Opcode × List (List Char)) :=
  let words := (lex line).filterMap fun | .word cs => some cs | _ => none
  match words with
  | op :: operands =>
    match opcodeOf op with
    | some o => .ok (o, operands)
    | none => .error (.line line)
  | [] => .error (.line line)

/-- Commas between operands are optional (rule R114): drop one. -/
def skipComma : List Token → List Token
  | .comma :: ts => ts
  | ts => ts

/-- The shape of a class's grammar after the opcode (rules R115 to R119): operand count, order and brackets,
which are required (decision D14). -/
def shapeOk (c : OpClass) (ts : List Token) : Bool :=
  match c, ts with
  | .register, .word _ :: ts => twoWords (skipComma ts)
  | .immediate, .word _ :: ts => twoWords (skipComma ts)
  | .memory, .word _ :: ts =>
    match skipComma ts with
    | .lbracket :: .word _ :: ts =>
      match skipComma ts with
      | [.word _, .rbracket] => true
      | _ => false
    | _ => false
  | .branch, [.word _] => true
  | .condBranch, .word _ :: ts => oneWord (skipComma ts)
  | _, _ => false
where
  oneWord : List Token → Bool
    | [.word _] => true
    | _ => false
  twoWords : List Token → Bool
    | .word _ :: ts => oneWord (skipComma ts)
    | _ => false

/-- The decoded instruction of an opcode and its raw operand tokens: each register token becomes its index and
the immediate token its integer (rule R123); `none` where a token is of the wrong kind. -/
def resolve (op : Opcode) (operands : List (List Char)) : Option Instr :=
  match op.cls, operands with
  | .register, [d, n, m] =>
    match registerToken? d, registerToken? n, registerToken? m with
    | some d, some n, some m => some (if op = .add then .add d n m else .sub d n m)
    | _, _, _ => none
  | .immediate, [d, n, imm] =>
    match registerToken? d, registerToken? n, immediateToken? imm with
    | some d, some n, some imm => some (if op = .addi then .addi d n imm else .subi d n imm)
    | _, _, _ => none
  | .memory, [t, n, imm] =>
    match registerToken? t, registerToken? n, immediateToken? imm with
    | some t, some n, some imm => some (if op = .ldur then .ldur t n imm else .stur t n imm)
    | _, _, _ => none
  | .branch, [imm] => (immediateToken? imm).map .b
  | .condBranch, [t, imm] =>
    match registerToken? t, immediateToken? imm with
    | some t, some imm => some (if op = .cbz then .cbz t imm else .cbnz t imm)
    | _, _ => none
  | _, _ => none

/-- `asm_decode(line)` (rule R123): the parser, the class grammar, the resolution of the operands, and the
static range of the immediate (rules R115 to R119). A line that fails any of them is rejected by name. -/
def asmDecode (line : AsmLine) : Except Malformed Instr :=
  match parse line with
  | .error e => .error e
  | .ok (op, operands) =>
    if shapeOk op.cls (lex line).tail then
      match resolve op operands with
      | some i => if i.wellFormed then .ok i else .error (.line line)
      | none => .error (.line line)
    else .error (.line line)

/-- The Format Validator `validate(line) -> ok | SyntaxError` (rule R120). -/
def validate (line : AsmLine) : Except Malformed Unit :=
  match asmDecode line with
  | .ok _ => .ok ()
  | .error e => .error e

/-- The text of a register: `X0` to `X30`, `XZR` for index 31 (rule R126). -/
def registerText (r : Nat) : List Char :=
  if r = Config.zeroReg then ['X', 'Z', 'R'] else 'X' :: digits r

/-- The text of an immediate: `#` and the decimal integer (rule R126). -/
def immediateText (k : Int) : List Char :=
  match k with
  | .ofNat n => '#' :: digits n
  | .negSucc n => '#' :: '-' :: digits (n + 1)

/-- The canonical text of a decoded instruction (rule R126). -/
def print (i : Instr) : AsmLine :=
  let op := mnemonic i.opcode ++ [' ']
  let sep := [',', ' ']
  match i with
  | .add d n m => op ++ registerText d ++ sep ++ registerText n ++ sep ++ registerText m
  | .sub d n m => op ++ registerText d ++ sep ++ registerText n ++ sep ++ registerText m
  | .addi d n imm => op ++ registerText d ++ sep ++ registerText n ++ sep ++ immediateText imm
  | .subi d n imm => op ++ registerText d ++ sep ++ registerText n ++ sep ++ immediateText imm
  | .ldur t n imm => op ++ registerText t ++ sep ++ ['['] ++ registerText n ++ sep ++ immediateText imm ++ [']']
  | .stur t n imm => op ++ registerText t ++ sep ++ ['['] ++ registerText n ++ sep ++ immediateText imm ++ [']']
  | .b imm => op ++ immediateText imm
  | .cbz t imm => op ++ registerText t ++ sep ++ immediateText imm
  | .cbnz t imm => op ++ registerText t ++ sep ++ immediateText imm

end Sys2Proof.Asm
end

