-- ==== Sys2Proof/Machine/State.lean ====
section
/-! DEFINITION. State.lean: the whole state of one CPU instance (10_state.md rule R20), the named error
conditions (60_exceptions.md rule R200), and the state after reset (10_state.md rule R50). -/

namespace Sys2Proof.Machine

/-- Data memory: the cells that differ from what an unlisted cell reads as, addresses rising; its canonical form
is `Memory.wf`. -/
abbrev Memory := List Host.Cell

/-- "The state of one CPU instance is exactly the following, and nothing else" (rule R20). -/
structure State where
  /-- X0 to X30; index 31 has no slot, it is wired to zero (rules R21, R22). -/
  regs : Vector Word Config.zeroReg
  /-- The program counter, an unsigned byte offset into the program (rule R27). -/
  pc : Word
  /-- The data memory, cells 0 to 255 (rule R33). -/
  mem : Memory
  /-- The program, fixed at construction: entry `k` is the instruction at offset `4*k` (rule R31), kept as
  its instruction word (rule R7 (c); log 5). -/
  prog : List InsnWord
  deriving DecidableEq, Repr

/-- The conditions of rule R200, each with the one value it carries (rule R208). All of them leave the state as
it was (rule R212), and stopping is what the hardware does too, so each is safe. -/
inductive Fault where
  /-- Code 1 (rule R201): entry `index` of the program is no instruction. Raised at construction, and by the fetch
  of an entry that no construction would have accepted (rule R210). Safe. -/
  | malformedInstruction (index : Nat) (entry : Malformed)
  /-- Code 2 (rule R203): a register operand, or a host's register name, does not resolve. Raised by operand
  resolution and by the host's access by name. Safe. -/
  | invalidRegister (token : List Char)
  /-- Code 3 (rule R202): the re-validation of the immediate failed. Raised by the meanings of the immediate,
  memory, branch and conditional branch classes. Safe. -/
  | invalidImmediate (imm : Int)
  /-- Code 4 (rule R204): a double-word address is not a multiple of 8. Raised by `memRead` and `memWrite`. Safe. -/
  | alignmentError (addr : Int)
  /-- Code 5 (rule R205): a data-memory address is out of range. Raised by `memRead`, `memWrite` and the byte
  accessors. Safe. -/
  | boundsError (addr : Int)
  /-- Code 6 (rule R206): the fetch is strictly beyond the end of the program. Raised by `fetch`. Safe. -/
  | outOfBounds (pc : Word)
  /-- Code 7 (rule R207): a register index outside 0 to 31. Raised by the host's register accessors. Safe. -/
  | indexOutOfRange (index : Int)
  deriving DecidableEq, Repr

/-- Refusals of the model. -/
inductive Refusal where
  /-- An instruction whose meaning is not written yet, rejected by name in its arm of `exec`; no arm uses it. Safe. -/
  | notModelled (mnemonic : String)
  deriving DecidableEq, Repr

/-- What a fetch finds (rules R35 to R37). -/
inductive Fetched where
  /-- `u(pc) == 4 * PROGLEN`: a clean halt, no instruction. -/
  | halted
  /-- The decoded instruction at the program counter. -/
  | instr (i : Instr)
  /-- An overrun (rule R206), or an entry that does not decode (rule R210). -/
  | fault (f : Fault)
  deriving DecidableEq, Repr

/-- The machine right after reset, with the empty program (rule R50: `pc` is 0; decision D18: the empty program is
legal). The registers hold the value that log 1 names and memory lists nothing (log 2). A program comes in by
construction (rule R240; log 3). -/
def State.reset : State :=
  { regs := Vector.replicate Config.zeroReg Config.resetRegister, pc := 0, mem := [], prog := [] }

end Sys2Proof.Machine
end

