-- ==== Sys2Proof/Machine/Ops.lean ====
section
/-! DEFINITION. Ops.lean: the named operations over registers, program counter, data memory and program
(00_scope.md rule R11), and the raising of a fault (60_exceptions.md rule R212). -/

namespace Sys2Proof.Machine

/-! ### Data memory -/

namespace Memory

/-- The canonical form: addresses rise, lie in 0 to 255, and no listed byte is what an unlisted cell reads as. -/
abbrev wf (m : Memory) : Prop :=
  m.Pairwise (fun c c' => c.1 < c'.1) ∧ ∀ c ∈ m, c.1 < Config.memSize ∧ c.2 ≠ Config.unlistedByte

/-- `mem[a]` (rule R33). -/
def read : Memory → Nat → Byte
  | [], _ => Config.unlistedByte
  | (k, v) :: rest, a => if k = a then v else read rest a

/-- Put a cell before the cells that follow it, unless it reads as an unlisted one. -/
def cons (a : Nat) (b : Byte) (rest : Memory) : Memory :=
  if b = Config.unlistedByte then rest else (a, b) :: rest

/-- `mem[a] := b`, keeping the canonical form. -/
def write : Memory → Nat → Byte → Memory
  | [], a, b => cons a b []
  | (k, v) :: rest, a, b =>
    if a < k then cons a b ((k, v) :: rest)
    else if a = k then cons a b rest
    else (k, v) :: write rest a b

/-- The memory whose cells `start`, `start + 1`, … hold the given bytes, all others unlisted. -/
def ofBytes (start : Nat) : List Byte → Memory
  | [] => []
  | b :: bs => cons start b (ofBytes (start + 1) bs)

/-- `mem[a] ++ mem[a+1] ++ … ++ mem[a+7]`: big-endian, most significant byte at the lowest address (rule R62). -/
def readDouble (m : Memory) (a : Nat) : Word :=
  read m a ++ read m (a + 1) ++ read m (a + 2) ++ read m (a + 3)
    ++ read m (a + 4) ++ read m (a + 5) ++ read m (a + 6) ++ read m (a + 7)

/-- Byte `j` of a double word: `v[63-8j : 56-8j]` (rule R62). -/
def byteOf (v : Word) (j : Nat) : Byte := v.extractLsb' (56 - 8 * j) 8

/-- `for j in 0..7: mem[a + j] := v[63-8j : 56-8j]` (rule R67). -/
def writeDouble (m : Memory) (a : Nat) (v : Word) : Memory :=
  (List.range 8).foldl (fun m j => write m (a + j) (byteOf v j)) m

end Memory

/-- The checks of a double-word access and their order (rules R63 to R65): alignment first, bounds second. -/
def checkDouble (addr : Int) : Except Fault Nat :=
  if addr % 8 ≠ 0 then .error (.alignmentError addr)
  else if addr < 0 ∨ addr + 7 > 255 then .error (.boundsError addr)
  else .ok addr.toNat

/-- The check of a byte access (rule R68). -/
def checkByte (addr : Int) : Except Fault Nat :=
  if addr < 0 ∨ addr > 255 then .error (.boundsError addr) else .ok addr.toNat

/-- `MemRead(addr, 8)` (rule R66); a read changes no state. -/
def memRead (m : Memory) (addr : Int) : Except Fault Word :=
  match checkDouble addr with
  | .error f => .error f
  | .ok a => .ok (m.readDouble a)

/-- `MemWrite(addr, 8, v)` (rule R67): both checks precede the first byte write. -/
def memWrite (m : Memory) (addr : Int) (v : Word) : Except Fault Memory :=
  match checkDouble addr with
  | .error f => .error f
  | .ok a => .ok (m.writeDouble a v)

/-! ### Registers and program counter -/

namespace State

/-- `x[i]` (rule R22): 0 for index 31, the slot otherwise. -/
def x (s : State) (i : RegIndex) : Word :=
  if h : i.val < Config.zeroReg then s.regs[i.val] else 0

/-- `x[i] <- v` (rule R22): no effect for index 31. -/
def setX (s : State) (i : RegIndex) (v : Word) : State :=
  if h : i.val < Config.zeroReg then { s with regs := s.regs.set i.val v h } else s

/-- `pc <- t` (rule R27). -/
def setPc (s : State) (t : Word) : State := { s with pc := t }

/-- `pc <- pc + 4` (rule R29). -/
def advance (s : State) : State := s.setPc (s.pc + 4)

/-- `pc <- pc + 4 * imm`, modulo 2^64, relative to the branch itself (rules R29, R30). -/
def jump (s : State) (imm : Int) : State := s.setPc (s.pc + BitVec.ofInt 64 (4 * imm))

/-- The data memory replaced. -/
def setMem (s : State) (m : Memory) : State := { s with mem := m }

/-! ### Engine states (rules R34, R35), computed and not stored -/

/-- `4 * PROGLEN`: the first offset that holds no instruction. -/
def progEnd (s : State) : Nat := Config.ilen * s.prog.length

/-- RUNNING: the program counter is within the program (rule R34). -/
def running (s : State) : Bool := decide (s.pc.toNat < s.progEnd)

/-- HALTED in the source's sense (rule R34). -/
def halted (s : State) : Bool := decide (s.progEnd ≤ s.pc.toNat)

/-- The clean halt, the only successful end of a run (rule R35). -/
def cleanHalt (s : State) : Bool := decide (s.pc.toNat = s.progEnd)

/-- The overrun (rule R35). -/
def overrun (s : State) : Bool := decide (s.progEnd < s.pc.toNat)

/-- Fetch and decode (rules R36, R37): `prog[u(pc)/4]`, decoded anew at every fetch (rule R32). An entry that does
not decode is no entry of a constructed program (rules R31, R210 line 2). For a `pc` that is no multiple of 4,
which no run reaches (rule R28), the quotient is rounded down (log 12). -/
def fetch (s : State) : Fetched :=
  if s.cleanHalt then .halted
  else
    match s.prog[s.pc.toNat / Config.ilen]? with
    | none => .fault (.outOfBounds s.pc)
    | some w =>
      match decode w with
      | .ok i => .instr i
      | .error e => .fault (.malformedInstruction (s.pc.toNat / Config.ilen) e)

end State

/-! ### Raising a fault -/

/-- `raise <Fault>(info)` (rules R11, R212): the step ends with the named fault and every piece of state is as it
was before the step. The machine has no handler, vector, saved register or return from a fault (rule R213), so
this is all there is to taking one. -/
def raise (f : Fault) : Host.Outcome State Fault Refusal := .fault f

/-- The ordinal of a condition (rule R200, column "code"; decision D8). -/
def Fault.code : Fault → Nat
  | .malformedInstruction _ _ => 1
  | .invalidRegister _ => 2
  | .invalidImmediate _ => 3
  | .alignmentError _ => 4
  | .boundsError _ => 5
  | .outOfBounds _ => 6
  | .indexOutOfRange _ => 7

end Sys2Proof.Machine
end

