-- ==== Sys2Proof/Machine/Operands.lean ====
section
/-! DEFINITION. Operands.lean: how the engine resolves a register operand and re-validates an immediate before an
instruction computes anything (60_exceptions.md rule R210), and the one addressing mode (42_load_store.md rule R161). -/

namespace Sys2Proof.Machine

/-- Resolve a register operand (rule R203): an index 0 to 31 goes on; anything else raises `InvalidRegister` with
the token `X<r>`. -/
def withReg (r : Nat) (body : RegIndex → Host.Outcome State Fault Refusal) : Host.Outcome State Fault Refusal :=
  if h : r < Config.numRegs then body ⟨r, h⟩ else raise (.invalidRegister ('X' :: Asm.digits r))

/-- Re-validate an immediate against its class's range (rules R150, R160, R170, R180). -/
def withImm (range : ImmRange) (imm : Int) (body : Host.Outcome State Fault Refusal) :
    Host.Outcome State Fault Refusal :=
  if range.contains imm then body else raise (.invalidImmediate imm)

/-- The effective address `s(x[n]) + imm`, as integers (rule R161). -/
def effectiveAddress (s : State) (n : RegIndex) (imm : Int) : Int := (s.x n).toInt + imm

/-- The address a hardware adder computes, `x[n] + sext_64(imm)` modulo 2^64; rule R161 says that it gives the same
verdicts. -/
def wrappedAddress (s : State) (n : RegIndex) (imm : Int) : Word := s.x n + BitVec.ofInt 64 imm

end Sys2Proof.Machine
end

