-- ==== Sys2Proof/Machine/Branch.lean ====
section
/-! DEFINITION. Branch.lean: the branch class, B (43_branch.md). -/

namespace Sys2Proof.Machine

/-- B (rule R171): the offset replaces the normal advance; the target is not checked here. -/
def execB (imm : Int) (s : State) : Host.Outcome State Fault Refusal :=
  withImm Config.immB imm <| .next (s.jump imm)

end Sys2Proof.Machine
end

