-- ==== Sys2Proof/Machine/Flags.lean ====
section
/-! DEFINITION. Flags.lean: the machine has no condition flags, carry, overflow bit or predicate register
(10_state.md rule R45). What stands here is the ALU, whose results set none (rule R44), and the zero test of the
conditional branches, which looks at a register directly. -/

namespace Sys2Proof.Machine

/-- The operations of the ALU (rule R44). -/
inductive AluOp where
  | add | sub
  deriving DecidableEq, Repr

/-- 64-bit addition and subtraction modulo 2^64; overflow is not detected and does not trap (rules R10, R143). -/
def alu : AluOp → Word → Word → Word
  | .add, a, b => a + b
  | .sub, a, b => a - b

/-- `zext_64(imm)` (rules R101, R151). -/
def immediateWord (imm : Int) : Word := BitVec.ofInt 64 imm

/-- "all 64 bits are tested" (rule R181). -/
def isZero (v : Word) : Bool := v == 0

end Sys2Proof.Machine
end

