-- ==== Sys2Proof/Machine/CondBranch.lean ====
section
/-! DEFINITION. CondBranch.lean: the conditional branch class, CBZ and CBNZ (44_cond_branch.md). -/

namespace Sys2Proof.Machine

/-- Common to the class (rule R180): the check of the immediate is made whether or not the branch is taken. -/
def condBranch (takenOnZero : Bool) (t : Nat) (imm : Int) (s : State) : Host.Outcome State Fault Refusal :=
  withReg t fun t => withImm Config.immCB imm <|
    .next (if isZero (s.x t) = takenOnZero then s.jump imm else s.advance)

/-- CBZ (rule R181). -/
def execCbz (t : Nat) (imm : Int) (s : State) : Host.Outcome State Fault Refusal := condBranch true t imm s

/-- CBNZ (rule R182). -/
def execCbnz (t : Nat) (imm : Int) (s : State) : Host.Outcome State Fault Refusal := condBranch false t imm s

end Sys2Proof.Machine
end

