-- ==== Sys2Proof/Machine/ImmediateAlu.lean ====
section
/-! DEFINITION. ImmediateAlu.lean: the immediate class, ADDI and SUBI (41_immediate_alu.md). -/

namespace Sys2Proof.Machine

/-- Common to the class (rule R150): the immediate is re-validated before anything is computed. -/
def immediateAlu (op : AluOp) (d n : Nat) (imm : Int) (s : State) : Host.Outcome State Fault Refusal :=
  withReg d fun d => withReg n fun n => withImm Config.immI imm <|
    .next (s.setX d (alu op (s.x n) (immediateWord imm))).advance

/-- ADDI (rule R151). -/
def execAddi (d n : Nat) (imm : Int) (s : State) : Host.Outcome State Fault Refusal := immediateAlu .add d n imm s

/-- SUBI (rule R152). -/
def execSubi (d n : Nat) (imm : Int) (s : State) : Host.Outcome State Fault Refusal := immediateAlu .sub d n imm s

end Sys2Proof.Machine
end

