-- ==== Sys2Proof/Machine/LoadStore.lean ====
section
/-! DEFINITION. LoadStore.lean: the memory class, LDUR and STUR (42_load_store.md). The checks come in the order of
rule R162: immediate, alignment, bounds. -/

namespace Sys2Proof.Machine

/-- LDUR (rule R163): the base is read before the destination is written; the checks are made for `t = 31` too. -/
def execLdur (t n : Nat) (imm : Int) (s : State) : Host.Outcome State Fault Refusal :=
  withReg t fun t => withReg n fun n => withImm Config.immD imm <|
    match memRead s.mem (effectiveAddress s n imm) with
    | .error f => raise f
    | .ok v => .next (s.setX t v).advance

/-- STUR (rule R164): no register is written. -/
def execStur (t n : Nat) (imm : Int) (s : State) : Host.Outcome State Fault Refusal :=
  withReg t fun t => withReg n fun n => withImm Config.immD imm <|
    match memWrite s.mem (effectiveAddress s n imm) (s.x t) with
    | .error f => raise f
    | .ok m => .next (s.setMem m).advance

end Sys2Proof.Machine
end

