-- ==== Sys2Proof/Machine/RegisterAlu.lean ====
section
/-! DEFINITION. RegisterAlu.lean: the register class, ADD and SUB (40_register_alu.md). -/

namespace Sys2Proof.Machine

/-- Common to the class (rule R140): both sources are read before the destination is written. -/
def registerAlu (op : AluOp) (d n m : Nat) (s : State) : Host.Outcome State Fault Refusal :=
  withReg d fun d => withReg n fun n => withReg m fun m =>
    .next (s.setX d (alu op (s.x n) (s.x m))).advance

/-- ADD (rule R141). -/
def execAdd (d n m : Nat) (s : State) : Host.Outcome State Fault Refusal := registerAlu .add d n m s

/-- SUB (rule R142): the first operand is the minuend. -/
def execSub (d n m : Nat) (s : State) : Host.Outcome State Fault Refusal := registerAlu .sub d n m s

end Sys2Proof.Machine
end

