-- ==== Sys2Proof/Machine/Dispatch.lean ====
section
/-! DEFINITION. Dispatch.lean: "dispatch on the decoded instruction" (10_state.md rule R36), one arm per opcode. -/

namespace Sys2Proof.Machine

def exec (i : Instr) (s : State) : Host.Outcome State Fault Refusal :=
  match i with
  | .add d n m => Sys2Proof.Machine.execAdd d n m s
  | .sub d n m => Sys2Proof.Machine.execSub d n m s
  | .addi d n imm => Sys2Proof.Machine.execAddi d n imm s
  | .subi d n imm => Sys2Proof.Machine.execSubi d n imm s
  | .ldur t n imm => Sys2Proof.Machine.execLdur t n imm s
  | .stur t n imm => Sys2Proof.Machine.execStur t n imm s
  | .b imm => Sys2Proof.Machine.execB imm s
  | .cbz t imm => Sys2Proof.Machine.execCbz t imm s
  | .cbnz t imm => Sys2Proof.Machine.execCbnz t imm s

end Sys2Proof.Machine
end

