-- ==== Sys2Proof/Machine/Step.lean ====
section
/-! DEFINITION. Step.lean: one step of the engine (10_state.md rule R36). -/

namespace Sys2Proof.Machine

/-- `step` (rule R36). At a clean halt the call "changes nothing and reports halted; it is not an error" (rule R38):
the next state is the same state, and `State.cleanHalt` reports the halt (log 4). -/
def step (s : State) : Host.Outcome State Fault Refusal :=
  match s.fetch with
  | .halted => .next s
  | .fault f => raise f
  | .instr i => exec i s

/-- `s` with one program entry placed where `step` fetches next: at index `u(pc)/4`. Where the program is shorter than
that, the entries up to that index are this word too (log 14). It stands for giving the program at construction
(rule R240; log 3). -/
def State.withFetchWord (s : State) (nbits w : Nat) : State :=
  let k := s.pc.toNat / Config.ilen
  let word := tableWord nbits w
  { s with prog :=
      if k < s.prog.length then s.prog.set k word
      else s.prog ++ List.replicate (k + 1 - s.prog.length) word }

end Sys2Proof.Machine
end

