-- ==== Sys2Proof/Machine/Run.lean ====
section
/-! DEFINITION. Run.lean: the single-step and run entry points of the engine (10_state.md rules R38, R39), and the
registers an instruction reads and writes (rule R24). -/

namespace Sys2Proof.Machine

/-- What one call of the single-step entry point reports: the post-state and how the call ended (rules R36, R38,
R40). A call that ends in a halt, a fault or a refusal leaves the state as it was (rules R38, R212). -/
inductive StepReport where
  | stepped (s : State)
  | halted (s : State)
  | faulted (f : Fault) (s : State)
  | refused (r : Refusal) (s : State)
  deriving DecidableEq, Repr

/-- The post-state of a report. -/
def StepReport.state : StepReport → State
  | .stepped s => s
  | .halted s => s
  | .faulted _ s => s
  | .refused _ s => s

/-- The single-step entry point (rule R38). -/
def stepCall (s : State) : StepReport :=
  if s.cleanHalt then .halted s
  else
    match step s with
    | .next t => .stepped t
    | .fault f => .faulted f s
    | .refused r => .refused r s

/-- The state of a run that has made some steps: it is over (clean halt, fault), or it goes on. -/
inductive RunReport where
  | halted (s : State)
  | faulted (f : Fault) (s : State)
  | refused (r : Refusal) (s : State)
  | goingOn (s : State)
  deriving DecidableEq, Repr

/-- The run entry point (rule R39), followed for at most `fuel` steps. The machine itself has no step limit (rule
R41): a run that never ends is one that goes on for every `fuel` (log 17). -/
def run (fuel : Nat) (s : State) : RunReport :=
  match fuel with
  | 0 => if s.cleanHalt then .halted s else .goingOn s
  | fuel + 1 =>
    match stepCall s with
    | .stepped t => run fuel t
    | .halted t => .halted t
    | .faulted f t => .faulted f t
    | .refused r t => .refused r t

/-- The registers an instruction reads (the table of rule R24). -/
def readSet : Instr → List Nat
  | .add _ n m => [n, m]
  | .sub _ n m => [n, m]
  | .addi _ n _ => [n]
  | .subi _ n _ => [n]
  | .ldur _ n _ => [n]
  | .stur t n _ => [n, t]
  | .b _ => []
  | .cbz t _ => [t]
  | .cbnz t _ => [t]

/-- The register an instruction writes (the table of rule R24). -/
def writeSet : Instr → List Nat
  | .add d _ _ => [d]
  | .sub d _ _ => [d]
  | .addi d _ _ => [d]
  | .subi d _ _ => [d]
  | .ldur t _ _ => [t]
  | .stur _ _ _ => []
  | .b _ => []
  | .cbz _ _ => []
  | .cbnz _ _ => []

end Sys2Proof.Machine
end

