-- ==== Sys2Proof/Machine/HostInterface.lean ====
section
/-! DEFINITION. HostInterface.lean: what the host can do to the machine (70_reset_and_hazards.md rules R240 to R251):
construct an instance, randomise, pre-configure, read and write registers and memory, compare, and drive the engine. -/

namespace Sys2Proof.Machine

/-! ### Register access (rules R25, R26) -/

/-- The check of a numeric register index (rules R25, R207; the spec's decision D17 for reads). -/
def checkIndex (index : Int) : Except Fault RegIndex :=
  if h : 0 ≤ index ∧ index < 32 then .ok ⟨index.toNat, by omega⟩ else .error (.indexOutOfRange index)

/-- `read_register(index)` (rule R25). -/
def readRegister (s : State) (index : Int) : Except Fault Word :=
  match checkIndex index with
  | .error f => .error f
  | .ok i => .ok (s.x i)

/-- `write_register(index, value)` (rule R25). -/
def writeRegister (s : State) (index : Int) (v : Word) : Except Fault State :=
  match checkIndex index with
  | .error f => .error f
  | .ok i => .ok (s.setX i v)

/-- A register name is resolved as a register token is (rules R26, R112), letters in either case. -/
def resolveName (name : List Char) : Except Fault RegIndex :=
  match Asm.registerToken? (name.map Char.toUpper) with
  | some i => .ok i
  | none => .error (.invalidRegister name)

/-- Read a register by its string name (rule R26). -/
def readRegisterByName (s : State) (name : List Char) : Except Fault Word :=
  match resolveName name with
  | .error f => .error f
  | .ok i => .ok (s.x i)

/-- Write a register by its string name (rule R26). -/
def writeRegisterByName (s : State) (name : List Char) (v : Word) : Except Fault State :=
  match resolveName name with
  | .error f => .error f
  | .ok i => .ok (s.setX i v)

/-! ### Memory access (rules R68, R80) -/

/-- `read_double_word(addr)` (rule R80). -/
def readDoubleWord (s : State) (addr : Int) : Except Fault Word := memRead s.mem addr

/-- `write_double_word(addr, value)` (rule R80). -/
def writeDoubleWord (s : State) (addr : Int) (v : Word) : Except Fault State :=
  match memWrite s.mem addr v with
  | .error f => .error f
  | .ok m => .ok (s.setMem m)

/-- `read_byte(addr)` (rule R68): bounds, no alignment. -/
def readByte (s : State) (addr : Int) : Except Fault Byte :=
  match checkByte addr with
  | .error f => .error f
  | .ok a => .ok (s.mem.read a)

/-- `write_byte(addr, value)` (rule R68). -/
def writeByte (s : State) (addr : Int) (v : Byte) : Except Fault State :=
  match checkByte addr with
  | .error f => .error f
  | .ok a => .ok (s.setMem (s.mem.write a v))

/-! ### Snapshots and equality (rules R42, R43) -/

/-- "read the current PC" (rule R42). -/
def readPc (s : State) : Word := s.pc

/-- The snapshot of the register file: 32 entries (rule R42). -/
def registerSnapshot (s : State) : Vector Word 32 := Vector.ofFn s.x

/-- The snapshot of memory: 256 bytes in address order (rules R42, R80). -/
def memorySnapshot (s : State) : Vector Byte 256 := Vector.ofFn fun a : Fin 256 => s.mem.read a.val

/-- The source's equality of two CPU instances: registers and memory are compared, the program counter and the
program are not (rule R43). -/
def equalInstances (s t : State) : Bool :=
  registerSnapshot s == registerSnapshot t && memorySnapshot s == memorySnapshot t

/-! ### Construction (rules R240 to R244) -/

/-- The values "randomise all" chooses (rule R51): one for each of X0 to X30 and one for each memory byte. -/
structure Randomisation where
  regs : Vector Word Config.zeroReg
  bytes : Vector Byte Config.memSize
  deriving DecidableEq, Repr

/-- "randomise all" (rule R51): index 31, the program counter and the program stay. -/
def randomise (r : Randomisation) (s : State) : State :=
  { s with regs := r.regs, mem := Memory.ofBytes 0 r.bytes.toList }

/-- Where a pre-configuration pair puts its value (rule R243). -/
inductive Location where
  | register (index : Int)
  | memory (addr : Int)
  deriving DecidableEq, Repr

/-- One pre-configuration pair: `write_register` or `MemWrite` (rule R243). -/
def applyPair (s : State) : Location × Word → Except Fault State
  | (.register index, v) => writeRegister s index v
  | (.memory addr, v) => writeDoubleWord s addr v

/-- Pairs are applied in the order given (rule R243); the first that fails makes the whole fail (rule R244; the spec's
decision D15). -/
def preconfigure (s : State) : List (Location × Word) → Except Fault State
  | [] => .ok s
  | p :: ps =>
    match applyPair s p with
    | .error f => .error f
    | .ok t => preconfigure t ps

/-- Decode the entries of a program in order, numbered from `k`; the first bad one aborts (rules R120, R241). -/
def decodeAll {α : Type} (dec : α → Except Malformed Instr) (k : Nat) : List α → Except Fault (List Instr)
  | [] => .ok []
  | entry :: rest =>
    match dec entry with
    | .error e => .error (.malformedInstruction k e)
    | .ok i =>
      match decodeAll dec (k + 1) rest with
      | .error f => .error f
      | .ok is => .ok (i :: is)

/-- `validate_program(lines)` (rule R120). -/
def validateProgram (lines : List AsmLine) : Except Fault Unit :=
  match decodeAll Asm.asmDecode 0 lines with
  | .error f => .error f
  | .ok _ => .ok ()

/-- What construction takes beside the program (rule R240): randomise first, if used, then the pairs (decision D15). -/
structure LaunchOptions where
  randomisation : Option Randomisation
  pairs : List (Location × Word)
  deriving DecidableEq, Repr

/-- Steps 3 to 6 of rule R240 on a validated program: `pc` 0, reset values, randomise, pre-configure. -/
def launch (prog : List InsnWord) (o : LaunchOptions) : Except Fault State :=
  let s := { State.reset with prog := prog }
  preconfigure (match o.randomisation with | some r => randomise r s | none => s) o.pairs

/-- Construction from instruction words (rules R240, R241; the spec's decision D22): every word must decode, else no
state exists. -/
def construct (words : List InsnWord) (o : LaunchOptions) : Except Fault State :=
  match decodeAll decode 0 words with
  | .error f => .error f
  | .ok _ => launch words o

/-- Construction from text, the source's form (rules R240, R241): `prog[k] = asm_decode(lines[k])` (rule R123), kept as
its word. -/
def constructText (lines : List AsmLine) (o : LaunchOptions) : Except Fault State :=
  match decodeAll Asm.asmDecode 0 lines with
  | .error f => .error f
  | .ok is => launch (is.map encode) o

/-! ### Driving the engine by single steps (rules R214, R250, R251) -/

/-- A host's session with one instance: its state, and the fault that ended its run, once one has. "a model should keep
the fault recorded rather than let a later host action clear it" (rule R214; log 16). The fault is no state of the
machine (rule R20). -/
structure Session where
  state : State
  fault : Option Fault
  deriving DecidableEq, Repr

/-- The host's writes that rule R250 allows between steps: of a register by index or by name, of a double word, of a
byte. -/
inductive HostWrite where
  | register (index : Int) (v : Word)
  | registerByName (name : List Char) (v : Word)
  | doubleWord (addr : Int) (v : Word)
  | byte (addr : Int) (b : Byte)
  deriving DecidableEq, Repr

/-- One host write: its accessor, with the accessor's checks and faults (rules R25, R26, R68, R80). -/
def applyWrite (s : State) : HostWrite → Except Fault State
  | .register index v => writeRegister s index v
  | .registerByName name v => writeRegisterByName s name v
  | .doubleWord addr v => writeDoubleWord s addr v
  | .byte addr b => writeByte s addr b

/-- What the host can do to the state between two moments of a session (rule R250): one call of the single-step entry
point, or one write. A call of `run` is the single steps it makes (60_exceptions.md rule R222). Construction and
randomising come before the session: they make the state it starts from. The reads change nothing. -/
inductive HostMove where
  | step
  | write (w : HostWrite)
  deriving DecidableEq, Repr

namespace Session

/-- A session with an instance in its launch state. -/
def start (s : State) : Session := ⟨s, none⟩

/-- One call of the single-step entry point. A run that has faulted stays so (rule R214). -/
def step (c : Session) : Session :=
  match c.fault with
  | some _ => c
  | none =>
    match stepCall c.state with
    | .stepped t => ⟨t, none⟩
    | .halted t => ⟨t, none⟩
    | .faulted f t => ⟨t, some f⟩
    | .refused _ t => ⟨t, none⟩

/-- Several calls, with no host write between them. -/
def steps : Nat → Session → Session
  | 0, c => c
  | n + 1, c => steps n c.step

/-- A host write between two steps (rule R251): it changes the state and clears no recorded fault; a write that fails
changes nothing. -/
def hostWrite (c : Session) (w : HostWrite) : Session :=
  match applyWrite c.state w with
  | .ok t => { c with state := t }
  | .error _ => c

/-- What a host may do between two moments of a session: call the engine once, or write. -/
def move (c : Session) : HostMove → Session
  | .step => c.step
  | .write w => c.hostWrite w

/-- A new launch from the state a host has made (rule R251). -/
def relaunch (c : Session) : Session := ⟨c.state, none⟩

/-- The run has ended cleanly; a run that has faulted never counts as completed (rules R214, R246). -/
def completed (c : Session) : Bool := c.fault.isNone && c.state.cleanHalt

end Session

end Sys2Proof.Machine
end

