-- ==== Sys2Proof/Safety.lean ====
section
/-! DEFINITION. Safety.lean: the terms in which claims about the machine are stated: its invariant, frames, legal
programs, launch states, and runs that end well. -/

namespace Sys2Proof.Machine

/-- Every entry of the program decodes (rule R31: "Every `prog[k]` is a well-formed decoded instruction"). -/
def LegalProgram (prog : List InsnWord) : Prop := ∀ w ∈ prog, ∃ i, decode w = .ok i

/-- What holds in every state a run reaches: the `pc` is a multiple of 4 (rule R28), memory keeps its canonical form
and its 256 cells (rule R49), the program is legal (rule R31) and no longer than `PROGLEN` allows (rule R6). -/
structure Inv (s : State) : Prop where
  pcAligned : s.pc.toNat % 4 = 0
  memWf : Memory.wf s.mem
  legal : LegalProgram s.prog
  progLen : s.prog.length ≤ Config.maxProgLen

/-- Every register but `d` reads as before. -/
def SameRegsExcept (d : RegIndex) (s t : State) : Prop := ∀ r : RegIndex, r ≠ d → t.x r = s.x r

/-- Every register reads as before. -/
def SameRegs (s t : State) : Prop := ∀ r : RegIndex, t.x r = s.x r

/-- Every byte of memory reads as before. -/
def SameMem (s t : State) : Prop := ∀ a : Nat, t.mem.read a = s.mem.read a

/-- Every byte of memory outside the double word at `addr` reads as before. -/
def SameMemOutside (addr : Int) (s t : State) : Prop :=
  ∀ a : Nat, ((a : Int) < addr ∨ addr + 8 ≤ (a : Int)) → t.mem.read a = s.mem.read a

/-- What a register-writing instruction does: `v` goes to register `d` (nowhere for index 31, which reads 0), the `pc`
advances by 4, and every other register, every byte of memory and the program are as before. -/
structure RegisterResult (d : RegIndex) (v : Word) (s t : State) : Prop where
  result : d ≠ 31 → t.x d = v
  zero : t.x 31 = 0
  others : SameRegsExcept d s t
  pc : t.pc = s.pc + 4
  mem : SameMem s t
  prog : t.prog = s.prog

/-- What a branch does: the `pc` is `target`, and every register, every byte of memory and the program are as before. The
branch does not check its target: one beyond the end of the program is reported by the next step, and one exactly at the
end is a clean halt, which the next call reports (rule R171). -/
structure BranchResult (target : Word) (s t : State) : Prop where
  pc : t.pc = target
  beyond : 4 * s.prog.length < target.toNat → step t = .fault (.outOfBounds target)
  atEnd : target.toNat = 4 * s.prog.length → t.cleanHalt = true ∧ stepCall t = .halted t
  regs : SameRegs s t
  mem : SameMem s t
  prog : t.prog = s.prog

/-- What a store of `v` at `addr` does: the eight bytes of `v`, most significant first, lie at `addr` and up, and every
other byte, every register and the program are as before; the `pc` advances by 4. -/
structure StoreResult (addr : Int) (v : Word) (s t : State) : Prop where
  stored : ∀ j < 8, t.mem.read (addr.toNat + j) = v.extractLsb' (56 - 8 * j) 8
  others : SameMemOutside addr s t
  regs : SameRegs s t
  pc : t.pc = s.pc + 4
  prog : t.prog = s.prog

/-- `v` is the double word at `addr`: byte `j` of memory is `v[63-8j : 56-8j]` (rule R62). -/
def IsDoubleWordAt (m : Memory) (addr : Int) (v : Word) : Prop :=
  ∀ j < 8, v.extractLsb' (56 - 8 * j) 8 = m.read (addr.toNat + j)

/-- The launch states of a program (rules R50, R240): `pc` 0, any registers and any memory. -/
def IsLaunchState (prog : List InsnWord) (s : State) : Prop :=
  s.pc = 0 ∧ s.prog = prog ∧ Memory.wf s.mem

/-- `t` is reached from `s` by some number of steps. -/
inductive Reaches : State → State → Prop where
  | refl (s : State) : Reaches s s
  | step {s t u : State} (first : step s = .next t) (rest : Reaches t u) : Reaches s u

/-- The three faults a step of a constructed program can raise (rule R211). -/
def RunTimeFault : Fault → Prop
  | .alignmentError _ => True
  | .boundsError _ => True
  | .outOfBounds _ => True
  | .malformedInstruction _ _ => False
  | .invalidRegister _ => False
  | .invalidImmediate _ => False
  | .indexOutOfRange _ => False

/-- A run that ends successfully in `t` (rule R246). -/
def CompletesIn (s t : State) : Prop := ∃ fuel, run fuel s = .halted t

/-- A safe run: for as long as it is followed, it neither faults nor is refused. -/
def SafeRun (s : State) : Prop :=
  ∀ fuel, (∃ t, run fuel s = .halted t) ∨ (∃ t, run fuel s = .goingOn t)

end Sys2Proof.Machine
end

