-- ==== Sys2Proof/Certificates/Slice0/Obligations.lean ====
section
/-! DEFINITION. Obligations.lean: the statements for the provers, each from a rule or a section of spec/. A docstring
names the rule or section, and the spec's decision D<n> or the log entry where a clause rests on one. -/

open Sys2Proof Sys2Proof.Machine

/-! ### Registers -/

/-- Rule R22, whole: index 31 reads 0 and discards writes; every other index holds what was written, and a write to it
changes no other register and nothing else. -/
def Obligations.ZeroRegisterWiredOthersHold : Prop :=
  ∀ (s : State) (v : Word),
    s.x 31 = 0 ∧ s.setX 31 v = s ∧
    ∀ i : RegIndex, i ≠ 31 →
      (s.setX i v).x i = v ∧ SameRegsExcept i s (s.setX i v) ∧ (s.setX i v).x 31 = 0 ∧
      (s.setX i v).pc = s.pc ∧ (s.setX i v).mem = s.mem ∧ (s.setX i v).prog = s.prog

/-- 10_state.md section 2, the table of rule R24: an instruction's outcome depends, of the registers, only on those
the table lets it read, and it changes only the one the table lets it write; at most two are read and at most one is
written. -/
def Obligations.RegisterReadsAndWritesFollowTable : Prop :=
  ∀ i : Instr,
    (readSet i).length ≤ 2 ∧ (writeSet i).length ≤ 1 ∧
    ∀ s t : State, s.pc = t.pc → s.prog = t.prog → s.mem = t.mem →
      (∀ r : RegIndex, r.val ∈ readSet i → s.x r = t.x r) →
      (∀ f, exec i s = .fault f → exec i t = .fault f) ∧
      (∀ s', exec i s = .next s' → ∃ t', exec i t = .next t' ∧ s'.pc = t'.pc ∧ s'.mem = t'.mem ∧
        s'.prog = t'.prog ∧
        (∀ r : RegIndex, r.val ∈ writeSet i → s'.x r = t'.x r) ∧
        (∀ r : RegIndex, r.val ∉ writeSet i → s'.x r = s.x r ∧ t'.x r = t.x r))

/-! ### The nine instructions -/

/-- Rule R141, whole: operands, encoding row, sum modulo 2^64, `pc + 4`, no fault, nothing else changed; `d = 31`
included. (The bit values of the row are the spec's decision D1.) -/
def Obligations.AddWritesSumModulo : Prop :=
  (∀ (s : State) (d n m : RegIndex), ∃ t, exec (.add d n m) s = .next t ∧
    RegisterResult d (BitVec.ofNat 64 ((s.x n).toNat + (s.x m).toNat)) s t) ∧
  (∀ w : InsnWord, w &&& 0xFFE0FC00 = 0x8B000000 →
    decode w = .ok (.add (w.extractLsb' 0 5).toNat (w.extractLsb' 5 5).toNat (w.extractLsb' 16 5).toNat))

/-- Rule R142, whole: the difference `Xn - Xm` modulo 2^64, otherwise as ADD. -/
def Obligations.SubWritesDifferenceModulo : Prop :=
  (∀ (s : State) (d n m : RegIndex), ∃ t, exec (.sub d n m) s = .next t ∧
    RegisterResult d (BitVec.ofInt 64 ((s.x n).toNat - (s.x m).toNat : Int)) s t) ∧
  (∀ w : InsnWord, w &&& 0xFFE0FC00 = 0xCB000000 →
    decode w = .ok (.sub (w.extractLsb' 0 5).toNat (w.extractLsb' 5 5).toNat (w.extractLsb' 16 5).toNat))

/-- Rule R151, whole: the zero-extended immediate is added; an immediate outside 0 to 4095 raises `InvalidImmediate`.
-/
def Obligations.AddiAddsZeroExtended : Prop :=
  (∀ (s : State) (d n : RegIndex) (imm : Int), 0 ≤ imm → imm ≤ 4095 →
    ∃ t, exec (.addi d n imm) s = .next t ∧ RegisterResult d (BitVec.ofInt 64 ((s.x n).toNat + imm)) s t) ∧
  (∀ (s : State) (d n : RegIndex) (imm : Int), imm < 0 ∨ 4095 < imm →
    exec (.addi d n imm) s = .fault (.invalidImmediate imm)) ∧
  (∀ w : InsnWord, w &&& 0xFFC00000 = 0x91000000 →
    decode w = .ok (.addi (w.extractLsb' 0 5).toNat (w.extractLsb' 5 5).toNat (w.extractLsb' 10 12).toNat))

/-- Rule R152, whole: the zero-extended immediate is subtracted, otherwise as ADDI. -/
def Obligations.SubiSubtractsZeroExtended : Prop :=
  (∀ (s : State) (d n : RegIndex) (imm : Int), 0 ≤ imm → imm ≤ 4095 →
    ∃ t, exec (.subi d n imm) s = .next t ∧ RegisterResult d (BitVec.ofInt 64 ((s.x n).toNat - imm)) s t) ∧
  (∀ (s : State) (d n : RegIndex) (imm : Int), imm < 0 ∨ 4095 < imm →
    exec (.subi d n imm) s = .fault (.invalidImmediate imm)) ∧
  (∀ w : InsnWord, w &&& 0xFFC00000 = 0xD1000000 →
    decode w = .ok (.subi (w.extractLsb' 0 5).toNat (w.extractLsb' 5 5).toNat (w.extractLsb' 10 12).toNat))

/-- Rule R163, whole: the address is `s(x[n]) + imm`; out-of-range immediate, misaligned address and out-of-range
address fault under their names; otherwise `Xt` gets the big-endian double word there and nothing else but the `pc`
changes. `t = 31` is checked and discards; `t = n` uses the old base. -/
def Obligations.LdurLoadsCheckedDoubleWord : Prop :=
  (∀ (s : State) (t n : RegIndex) (imm : Int),
    let addr := effectiveAddress s n imm
    addr = (s.x n).toInt + imm ∧
    ((imm < -256 ∨ 255 < imm) → exec (.ldur t n imm) s = .fault (.invalidImmediate imm)) ∧
    (-256 ≤ imm → imm ≤ 255 →
      (addr % 8 ≠ 0 → exec (.ldur t n imm) s = .fault (.alignmentError addr)) ∧
      (addr % 8 = 0 → addr < 0 ∨ 248 < addr → exec (.ldur t n imm) s = .fault (.boundsError addr)) ∧
      (addr % 8 = 0 → 0 ≤ addr → addr ≤ 248 →
        ∃ v u, IsDoubleWordAt s.mem addr v ∧ exec (.ldur t n imm) s = .next u ∧ RegisterResult t v s u))) ∧
  (∀ w : InsnWord, w &&& 0xFFE00C00 = 0xF8400000 →
    decode w = .ok (.ldur (w.extractLsb' 0 5).toNat (w.extractLsb' 5 5).toNat (w.extractLsb' 12 9).toInt))

/-- Rule R164, whole: the checks of LDUR, then the eight bytes of `Xt` go to memory big-endian and nothing else but
the `pc` changes. The premise on memory is the canonical form of `StepKeepsInvariant`. -/
def Obligations.SturStoresCheckedDoubleWord : Prop :=
  (∀ (s : State) (t n : RegIndex) (imm : Int),
    let addr := effectiveAddress s n imm
    addr = (s.x n).toInt + imm ∧
    ((imm < -256 ∨ 255 < imm) → exec (.stur t n imm) s = .fault (.invalidImmediate imm)) ∧
    (-256 ≤ imm → imm ≤ 255 →
      (addr % 8 ≠ 0 → exec (.stur t n imm) s = .fault (.alignmentError addr)) ∧
      (addr % 8 = 0 → addr < 0 ∨ 248 < addr → exec (.stur t n imm) s = .fault (.boundsError addr)) ∧
      (addr % 8 = 0 → 0 ≤ addr → addr ≤ 248 → Memory.wf s.mem →
        ∃ u, exec (.stur t n imm) s = .next u ∧ StoreResult addr (s.x t) s u))) ∧
  (∀ w : InsnWord, w &&& 0xFFE00C00 = 0xF8000000 →
    decode w = .ok (.stur (w.extractLsb' 0 5).toNat (w.extractLsb' 5 5).toNat (w.extractLsb' 12 9).toInt))

/-- Rule R171, whole: `pc + 4*imm` modulo 2^64, relative to the branch, replacing the `+4`; no register or memory
changes; an immediate outside its range raises `InvalidImmediate`. -/
def Obligations.BranchAddsFourTimesOffset : Prop :=
  (∀ (s : State) (imm : Int), -33554432 ≤ imm → imm ≤ 33554431 →
    ∃ t, exec (.b imm) s = .next t ∧ BranchResult (BitVec.ofInt 64 (s.pc.toNat + 4 * imm)) s t) ∧
  (∀ (s : State) (imm : Int), imm < -33554432 ∨ 33554431 < imm →
    exec (.b imm) s = .fault (.invalidImmediate imm)) ∧
  (∀ w : InsnWord, w &&& 0xFC000000 = 0x14000000 → decode w = .ok (.b (w.extractLsb' 0 26).toInt))

/-- Rule R181, whole: taken exactly when all 64 bits of `Xt` are 0. -/
def Obligations.CbzTakenExactlyOnZero : Prop :=
  (∀ (s : State) (t : RegIndex) (imm : Int), -262144 ≤ imm → imm ≤ 262143 →
    ∃ u, exec (.cbz t imm) s = .next u ∧
      BranchResult (if (s.x t).toNat = 0 then BitVec.ofInt 64 (s.pc.toNat + 4 * imm) else s.pc + 4) s u) ∧
  (∀ (s : State) (t : RegIndex) (imm : Int), imm < -262144 ∨ 262143 < imm →
    exec (.cbz t imm) s = .fault (.invalidImmediate imm)) ∧
  (∀ w : InsnWord, w &&& 0xFF000000 = 0xB4000000 →
    decode w = .ok (.cbz (w.extractLsb' 0 5).toNat (w.extractLsb' 5 19).toInt))

/-- Rule R182, whole: taken exactly when some bit of `Xt` is 1; never for `XZR`. -/
def Obligations.CbnzTakenExactlyOnNonzero : Prop :=
  (∀ (s : State) (t : RegIndex) (imm : Int), -262144 ≤ imm → imm ≤ 262143 →
    ∃ u, exec (.cbnz t imm) s = .next u ∧
      BranchResult (if (s.x t).toNat = 0 then s.pc + 4 else BitVec.ofInt 64 (s.pc.toNat + 4 * imm)) s u) ∧
  (∀ (s : State) (t : RegIndex) (imm : Int), imm < -262144 ∨ 262143 < imm →
    exec (.cbnz t imm) s = .fault (.invalidImmediate imm)) ∧
  (∀ w : InsnWord, w &&& 0xFF000000 = 0xB5000000 →
    decode w = .ok (.cbnz (w.extractLsb' 0 5).toNat (w.extractLsb' 5 19).toInt))

/-! ### Rules over all instructions -/

/-- What the four files 41 to 44 say is common to their class (rules R150, R160, R170, R180): with register operands
that resolve, `InvalidImmediate` is raised exactly where the immediate is outside its class's range, and it carries
the immediate; no decoded word gets there (the spec's own inference). -/
def Obligations.ImmediateRevalidatedPerClass : Prop :=
  (∀ (i : Instr) (s : State) (k : Int), i.regsOk = true →
    (exec i s = .fault (.invalidImmediate k) ↔
      i.imm? = some k ∧
      match i.opcode.cls with
      | .register => False
      | .immediate => k < 0 ∨ 4095 < k
      | .memory => k < -256 ∨ 255 < k
      | .branch => k < -33554432 ∨ 33554431 < k
      | .condBranch => k < -262144 ∨ 262143 < k)) ∧
  (∀ (w : InsnWord) (i : Instr) (s : State) (k : Int), decode w = .ok i → exec i s ≠ .fault (.invalidImmediate k))

/-- 60_exceptions.md section 2 (the spec's decision D6): a fault of an instruction is one of four, in this order: a
register operand that does not resolve, an immediate out of range, a misaligned address, an address out of range. Two
things are the model's own choice: of several register operands that do not resolve the first in source order is
reported (log 8), and the token it carries is `X` and the decimal digits of the number (log 11). -/
def Obligations.InstructionFaultsInOneOrder : Prop :=
  ∀ (i : Instr) (s : State) (f : Fault), exec i s = .fault f →
    (∃ r, i.regs.find? (fun r => decide (32 ≤ r)) = some r ∧ f = .invalidRegister ('X' :: Asm.digits r)) ∨
    (i.regsOk = true ∧ ∃ k, i.imm? = some k ∧ i.immOk = false ∧ f = .invalidImmediate k) ∨
    (i.wellFormed = true ∧ ∃ (t n : RegIndex) (imm : Int), (i = .ldur t n imm ∨ i = .stur t n imm) ∧
      effectiveAddress s n imm % 8 ≠ 0 ∧ f = .alignmentError (effectiveAddress s n imm)) ∨
    (i.wellFormed = true ∧ ∃ (t n : RegIndex) (imm : Int), (i = .ldur t n imm ∨ i = .stur t n imm) ∧
      effectiveAddress s n imm % 8 = 0 ∧
      (effectiveAddress s n imm < 0 ∨ 248 < effectiveAddress s n imm) ∧
      f = .boundsError (effectiveAddress s n imm))

/-- 60_exceptions.md section 2 (the spec's decision D6): an instruction with a register operand outside 0 to 31 stops
with `InvalidRegister`, in every state and whatever its immediate. The token, `X` and the decimal digits of the
number, is the model's choice (log 11). -/
def Obligations.UnresolvableRegisterStops : Prop :=
  ∀ (i : Instr) (s : State), i.regsOk = false →
    ∃ r ∈ i.regs, 32 ≤ r ∧ exec i s = .fault (.invalidRegister ('X' :: Asm.digits r))

/-- 10_state.md section 3, the table of rule R29: the new program counter of every instruction, and the `pc` of a call
that faults. That the sum is taken modulo 2^64 is the spec's decision D4 (log 7), and that a fault leaves the `pc` its
decision D7 (log 20). -/
def Obligations.ProgramCounterFollowsTable : Prop :=
  (∀ (i : Instr) (s t : State), exec i s = .next t →
    match i with
    | .b imm => t.pc = BitVec.ofInt 64 (s.pc.toNat + 4 * imm)
    | .cbz r imm => ∃ h : r < 32,
        t.pc = if s.x ⟨r, h⟩ = 0 then BitVec.ofInt 64 (s.pc.toNat + 4 * imm) else BitVec.ofInt 64 (s.pc.toNat + 4)
    | .cbnz r imm => ∃ h : r < 32,
        t.pc = if s.x ⟨r, h⟩ ≠ 0 then BitVec.ofInt 64 (s.pc.toNat + 4 * imm) else BitVec.ofInt 64 (s.pc.toNat + 4)
    | _ => t.pc = BitVec.ofInt 64 (s.pc.toNat + 4)) ∧
  (∀ (s t : State) (f : Fault), stepCall s = .faulted f t → t.pc = s.pc)

/-- 42_load_store.md, the effective address (rule R161; the spec's decision D11): the integer address and the wrapped
64-bit sum give the same alignment verdict, the same bounds verdict and, inside memory, the same cell. -/
def Obligations.AddressReadingsAgree : Prop :=
  ∀ (s : State) (n : RegIndex) (imm : Int), -256 ≤ imm → imm ≤ 255 →
    let addr := effectiveAddress s n imm
    let ea := wrappedAddress s n imm
    addr = (s.x n).toInt + imm ∧
    -2 ^ 63 - 256 ≤ addr ∧ addr ≤ 2 ^ 63 + 254 ∧
    ea = BitVec.ofInt 64 ((s.x n).toNat + imm) ∧
    addr % 8 = (ea.toNat : Int) % 8 ∧
    ((0 ≤ addr ∧ addr ≤ 248) ↔ ea.toNat ≤ 248) ∧
    (ea.toNat ≤ 248 → addr = ea.toNat)

/-! ### Data memory -/

/-- Rule R66, whole: `MemRead` checks alignment, then bounds, then gives the big-endian double word. -/
def Obligations.MemReadChecksThenReads : Prop :=
  ∀ (m : Memory) (addr : Int),
    (addr % 8 ≠ 0 → memRead m addr = .error (.alignmentError addr)) ∧
    (addr % 8 = 0 → addr < 0 ∨ 255 < addr + 7 → memRead m addr = .error (.boundsError addr)) ∧
    (addr % 8 = 0 → 0 ≤ addr → addr + 7 ≤ 255 → ∃ v, memRead m addr = .ok v ∧ IsDoubleWordAt m addr v)

/-- Rule R67, whole: `MemWrite` makes the same checks, then writes exactly the eight cells. -/
def Obligations.MemWriteChecksThenWrites : Prop :=
  ∀ (m : Memory) (addr : Int) (v : Word), Memory.wf m →
    (addr % 8 ≠ 0 → memWrite m addr v = .error (.alignmentError addr)) ∧
    (addr % 8 = 0 → addr < 0 ∨ 255 < addr + 7 → memWrite m addr v = .error (.boundsError addr)) ∧
    (addr % 8 = 0 → 0 ≤ addr → addr + 7 ≤ 255 → ∃ m', memWrite m addr v = .ok m' ∧ Memory.wf m' ∧
      IsDoubleWordAt m' addr v ∧
      ∀ a : Nat, ((a : Int) < addr ∨ addr + 8 ≤ a) → m'.read a = m.read a)

/-- Rule R63, whole: every misaligned double-word access, read or write, fails with `AlignmentError` and does nothing;
the test gives the same answer on either reading of a 64-bit value. -/
def Obligations.MisalignedAccessAlwaysFails : Prop :=
  (∀ (s : State) (addr : Int) (v : Word), addr % 8 ≠ 0 →
    writeDoubleWord s addr v = .error (.alignmentError addr) ∧ readDoubleWord s addr = .error (.alignmentError addr)) ∧
  (∀ v : Word, v.toInt % 8 = (v.toNat : Int) % 8)

/-- Rule R64, whole: an aligned double-word access that is not at one of 0, 8, …, 248 fails with `BoundsError`. -/
def Obligations.AlignedAccessOutsideFails : Prop :=
  ∀ (s : State) (addr : Int) (v : Word), addr % 8 = 0 → (∀ k : Nat, k ≤ 31 → addr ≠ 8 * k) →
    (addr < 0 ∨ 256 ≤ addr + 7) ∧
    writeDoubleWord s addr v = .error (.boundsError addr) ∧ readDoubleWord s addr = .error (.boundsError addr)

/-- Rule R71, whole: every cell is plain storage: a double word reads back as written, a second equal write changes
nothing more, every byte reads as the last write left it, a value written over what is there is no change; and a write
changes no register, no program counter and no program. -/
def Obligations.MemoryIsPlainStorage : Prop :=
  ∀ (s : State) (a : Int) (v : Word), Memory.wf s.mem → a % 8 = 0 → 0 ≤ a → a + 7 < 256 →
    ∃ t, writeDoubleWord s a v = .ok t ∧ readDoubleWord t a = .ok v ∧ writeDoubleWord t a v = .ok t ∧
      (∀ b : Nat, ((b : Int) < a ∨ a + 8 ≤ b) → t.mem.read b = s.mem.read b) ∧
      SameRegs s t ∧ t.pc = s.pc ∧ t.prog = s.prog ∧
      (∀ w, readDoubleWord s a = .ok w → writeDoubleWord s a w = .ok s)

/-- Rule R68, whole: the byte accessors check bounds only, at both ends, and touch one cell. -/
def Obligations.ByteAccessorsCheckBoundsOnly : Prop :=
  ∀ (s : State) (addr : Int) (b : Byte), Memory.wf s.mem →
    (addr < 0 ∨ 256 ≤ addr → readByte s addr = .error (.boundsError addr) ∧
      writeByte s addr b = .error (.boundsError addr)) ∧
    (0 ≤ addr → addr < 256 → readByte s addr = .ok (s.mem.read addr.toNat) ∧
      ∃ t, writeByte s addr b = .ok t ∧ t.mem.read addr.toNat = b ∧
        (∀ a : Nat, (a : Int) ≠ addr → t.mem.read a = s.mem.read a) ∧
        SameRegs s t ∧ t.pc = s.pc ∧ t.prog = s.prog)

/-- 20_memory.md section 2: after a double-word write of `v` at `a` the host's byte accessor reads `v[63-8j : 56-8j]`
at `a + j`. -/
def Obligations.HostSeesBigEndianBytes : Prop :=
  ∀ (s t : State) (a : Int) (v : Word), Memory.wf s.mem → writeDoubleWord s a v = .ok t →
    ∀ j : Nat, j < 8 → readByte t (a + j) = .ok (v.extractLsb' (56 - 8 * j) 8)

/-- 20_memory.md section 6 and 70_reset_and_hazards.md section 3: a load that follows a store at the same address gets
the stored value, whatever the registers. -/
def Obligations.LoadSeesPrecedingStore : Prop :=
  ∀ (s : State) (t d n : RegIndex) (imm : Int), Memory.wf s.mem → -256 ≤ imm → imm ≤ 255 →
    effectiveAddress s n imm % 8 = 0 → 0 ≤ effectiveAddress s n imm → effectiveAddress s n imm ≤ 248 →
    ∃ s1 s2, exec (.stur t n imm) s = .next s1 ∧ exec (.ldur d n imm) s1 = .next s2 ∧
      RegisterResult d (s.x t) s1 s2

/-- 20_memory.md section 6, rule (c): during a run nothing but a store writes memory. -/
def Obligations.OnlyStoresWriteMemory : Prop :=
  ∀ s t : State, step s = .next t → (∀ (r n : Nat) (imm : Int), s.fetch ≠ .instr (.stur r n imm)) → SameMem s t

/-- Rule R78, whole: no step changes the program, and a fetch depends on the program counter and the program alone. -/
def Obligations.StoresNeverReachTheProgram : Prop :=
  (∀ s t : State, step s = .next t → t.prog = s.prog) ∧
  (∀ s t : State, s.pc = t.pc → s.prog = t.prog → s.fetch = t.fetch)

/-! ### Engine, step and run -/

/-- 10_state.md section 6 (rule R34; the empty program is the spec's own inference): RUNNING and HALTED are computed
from `pc` and `PROGLEN`; with `pc` 0 the engine is RUNNING exactly when the program is not empty. That `step` answers
the same state at the program's end is the model's choice (log 4), the interface having no halted outcome; `stepCall`
reports the halt. -/
def Obligations.EngineStateComparesPcWithEnd : Prop :=
  ∀ s : State,
    (s.running = true ↔ s.pc.toNat < 4 * s.prog.length) ∧
    (s.halted = true ↔ 4 * s.prog.length ≤ s.pc.toNat) ∧
    (s.pc = 0 → (s.running = true ↔ s.prog ≠ [])) ∧
    (s.pc.toNat = 4 * s.prog.length → step s = .next s)

/-- Rule R36, whole: at a clean halt the call changes nothing and reports halted; in an overrun it raises
`OutOfBounds`; otherwise the entry at `pc / 4` is decoded and its rule performed: `step` is `exec` of it, with nothing
added around. A call that faults leaves the state as it was. -/
def Obligations.StepExecutesFetchedInstruction : Prop :=
  ∀ s : State,
    (s.pc.toNat = 4 * s.prog.length → stepCall s = .halted s) ∧
    (4 * s.prog.length < s.pc.toNat → step s = .fault (.outOfBounds s.pc)) ∧
    (∀ (k : Nat) (h : k < s.prog.length) (i : Instr), s.pc.toNat = 4 * k → decode s.prog[k] = .ok i →
      step s = exec i s) ∧
    (∀ f, step s = .fault f → stepCall s = .faulted f s)

/-- 60_exceptions.md section 2, line 2 (D6; log 5): an entry that does not decode, which no construction lets in,
stops the step with `MalformedInstruction`. -/
def Obligations.UndecodableEntryStops : Prop :=
  ∀ (s : State) (k : Nat) (h : k < s.prog.length) (e : Malformed), s.pc.toNat = 4 * k →
    decode s.prog[k] = .error e → step s = .fault (.malformedInstruction k e)

/-- 60_exceptions.md section 3 (the spec's decision D7): a faulting step leaves the whole state as it was, and the
same call made again raises the same fault. -/
def Obligations.FaultLeavesStateAndRepeats : Prop :=
  ∀ (s : State) (f : Fault), step s = .fault f →
    stepCall s = .faulted f s ∧ (Session.start s).step = ⟨s, some f⟩ ∧
    stepCall ((Session.start s).step).state = .faulted f s

/-- 60_exceptions.md section 3 (D7; log 16) and 70_reset_and_hazards.md section 2: whatever calls of the engine and
whatever writes the host makes after a fault (of a register by index or by name, of a double word, of a byte), the
fault stays recorded, the run never counts as completed, and the program counter and the program stay as they are. A
new launch (`Session.relaunch`) is a new run and no such move. -/
def Obligations.RecordedFaultIsFinal : Prop :=
  ∀ (c : Session) (f : Fault) (moves : List HostMove), c.fault = some f →
    let d := moves.foldl Session.move c
    d.fault = some f ∧ d.completed = false ∧ d.state.pc = c.state.pc ∧ d.state.prog = c.state.prog

/-- 10_state.md section 3 (the spec's decisions D4, D5): where a fetched B goes. A target inside the program is
executed next, a target at its end is a clean halt, and a target below 0 or beyond the end is reported as
`OutOfBounds` by the next step, not by the branch. That `step` answers the same state at a clean halt is the model's
choice (log 4). -/
def Obligations.BranchTargetDecidesWhatFollows : Prop :=
  ∀ (s : State) (imm : Int), Inv s → s.fetch = .instr (.b imm) →
    ∃ t, step s = .next t ∧ t.prog = s.prog ∧
      (0 ≤ s.pc.toNat + 4 * imm → s.pc.toNat + 4 * imm < 4 * s.prog.length →
        (t.pc.toNat : Int) = s.pc.toNat + 4 * imm ∧ t.running = true) ∧
      (s.pc.toNat + 4 * imm = 4 * s.prog.length → t.cleanHalt = true ∧ stepCall t = .halted t ∧ step t = .next t) ∧
      (s.pc.toNat + 4 * imm < 0 →
        (t.pc.toNat : Int) = s.pc.toNat + 4 * imm + 2 ^ 64 ∧ step t = .fault (.outOfBounds t.pc)) ∧
      (4 * s.prog.length < s.pc.toNat + 4 * imm →
        (t.pc.toNat : Int) = s.pc.toNat + 4 * imm ∧ step t = .fault (.outOfBounds t.pc))

/-- 10_state.md section 6: the instruction `B #0` runs forever, and no state changes. -/
def Obligations.SelfBranchNeverEnds : Prop :=
  ∀ s : State, s.fetch = .instr (.b 0) → ∀ fuel, run fuel s = .goingOn s

/-- Rule R246: a run ends successfully exactly when some step finds `u(pc) = 4 * PROGLEN`, and the final state is the
state at that moment; a run that faults or never ends has no final state. -/
def Obligations.RunCompletesExactlyAtProgramEnd : Prop :=
  ∀ s t : State,
    (CompletesIn s t ↔ (Reaches s t ∧ t.pc.toNat = 4 * t.prog.length)) ∧
    (CompletesIn s t → (∀ fuel f u, run fuel s ≠ .faulted f u) ∧ ∃ fuel, ∀ u, run fuel s ≠ .goingOn u)

/-- 10_state.md section 6 (rule R39): a run ends in exactly one of three ways: a clean halt, a fault, or never. -/
def Obligations.RunEndsInExactlyOneWay : Prop :=
  ∀ s : State,
    ((∃ t, CompletesIn s t) ∧ (¬ ∃ fuel f t, run fuel s = .faulted f t) ∧ ¬ ∀ fuel, ∃ t, run fuel s = .goingOn t) ∨
    ((¬ ∃ t, CompletesIn s t) ∧ (∃ fuel f t, run fuel s = .faulted f t) ∧ ¬ ∀ fuel, ∃ t, run fuel s = .goingOn t) ∨
    ((¬ ∃ t, CompletesIn s t) ∧ (¬ ∃ fuel f t, run fuel s = .faulted f t) ∧ ∀ fuel, ∃ t, run fuel s = .goingOn t)

/-- 40_register_alu.md and 41_immediate_alu.md (what is common to the class) with 10_state.md section 6: from every state
that meets the invariant with its `pc` inside the program or at its end, a program of ADD, SUB, ADDI and SUBI alone is
run safely to its clean halt, in one step for each instruction from the `pc` on, and no byte of memory changes. -/
def Obligations.StraightLineProgramCompletes : Prop :=
  ∀ s : State, Inv s → s.pc.toNat ≤ 4 * s.prog.length →
    (∀ w ∈ s.prog, ∃ i, decode w = .ok i ∧ (i.opcode.cls = .register ∨ i.opcode.cls = .immediate)) →
    SafeRun s ∧ ∃ t, run (s.prog.length - s.pc.toNat / 4) s = .halted t ∧ SameMem s t

/-- 60_exceptions.md section 5: a run by repeated single steps with no host write between them reaches exactly what
`run` reaches. -/
def Obligations.SingleSteppingEqualsRunning : Prop :=
  ∀ (fuel : Nat) (s : State),
    let c := Session.steps fuel (Session.start s)
    match run fuel s with
    | .halted t => c = ⟨t, none⟩ ∧ c.completed = true
    | .faulted f t => c = ⟨t, some f⟩
    | .goingOn t => c = ⟨t, none⟩ ∧ c.completed = false
    | .refused _ _ => False

/-! ### Invariants -/

/-- 10_state.md section 9 and section 3: from every state that meets it, every step keeps the invariant: the `pc` is a
multiple of 4, memory keeps its 256 cells in canonical form, the program stays legal, of the same length, and
unchanged. -/
def Obligations.StepKeepsInvariant : Prop :=
  ∀ s t : State, Inv s → step s = .next t → Inv t ∧ t.prog = s.prog ∧ t.x 31 = 0

/-- The state after reset meets the invariant, with `pc` 0, and is at a clean halt, the program being empty
(10_state.md section 10, the spec's decision D18; that `State.reset` has the empty program is log 3). -/
def Obligations.ResetMeetsInvariant : Prop :=
  Inv State.reset ∧ State.reset.pc = 0 ∧ State.reset.x 31 = 0 ∧ State.reset.cleanHalt = true

/-- 60_exceptions.md section 2 and 10_state.md section 9: in every state that a constructed program reaches, the
invariant holds, a step is never refused, and it faults only with `OutOfBounds`, `AlignmentError` or `BoundsError`. -/
def Obligations.ConstructedProgramRunsSafely : Prop :=
  ∀ (words : List InsnWord) (o : LaunchOptions) (s t : State), words.length ≤ 2 ^ 32 →
    construct words o = .ok s → Reaches s t →
    Inv t ∧ t.prog = words ∧ (∀ r, step t ≠ .refused r) ∧ (∀ f, step t = .fault f → RunTimeFault f)

/-! ### Construction and the host -/

/-- 70_reset_and_hazards.md section 1 (rule R242; the empty program is the spec's decision D18): after construction
without options the `pc` is 0, the engine is RUNNING or, for the empty program, at a clean halt, `x[31]` is 0, and the
invariant holds. What X0 to X30 and memory hold is the model's choice (logs 1, 2) and is not stated. -/
def Obligations.ConstructionReachesLaunchState : Prop :=
  ∀ words : List InsnWord, LegalProgram words → words.length ≤ 2 ^ 32 →
    ∃ s, construct words ⟨none, []⟩ = .ok s ∧ s.pc = 0 ∧ s.prog = words ∧ s.x 31 = 0 ∧ Inv s ∧
      (words ≠ [] → s.running = true) ∧ (words = [] → s.cleanHalt = true)

/-- 10_state.md section 10 (the spec's decision D9): the launch states of a program are exactly what construction with
some randomisation reaches: `pc` 0, and any values in X0 to X30 and in memory. -/
def Obligations.LaunchValuesAreArbitrary : Prop :=
  ∀ (words : List InsnWord) (s : State), LegalProgram words →
    (IsLaunchState words s ↔ ∃ r, construct words ⟨some r, []⟩ = .ok s)

/-- Rule R51, whole: randomise-all puts the chosen values in X0 to X30 and in every byte, and leaves `x[31]`, `pc` and
the program alone. -/
def Obligations.RandomiseFillsRegistersAndMemory : Prop :=
  ∀ (r : Randomisation) (s : State),
    (∀ i : RegIndex, (h : i.val < 31) → (randomise r s).x i = r.regs[i.val]) ∧
    (∀ a : Nat, (h : a < 256) → (randomise r s).mem.read a = r.bytes[a]) ∧
    (randomise r s).x 31 = 0 ∧ (randomise r s).pc = s.pc ∧ (randomise r s).prog = s.prog

/-- 70_reset_and_hazards.md section 1 and 30_encoding.md sections 3 and 4 (for words the spec's decision D22): loading
aborts on the first bad entry, whatever stands after it and whatever the options, and no state exists. -/
def Obligations.LoadingAbortsOnFirstBadEntry : Prop :=
  (∀ (good rest : List InsnWord) (w : InsnWord) (o : LaunchOptions), LegalProgram good →
    (∀ i, decode w ≠ .ok i) →
    construct (good ++ w :: rest) o = .error (.malformedInstruction good.length (.word w))) ∧
  (∀ (good rest : List AsmLine) (line : AsmLine) (o : LaunchOptions), (∀ l ∈ good, ∃ i, Asm.asmDecode l = .ok i) →
    (∀ i, Asm.asmDecode line ≠ .ok i) →
    constructText (good ++ line :: rest) o = .error (.malformedInstruction good.length (.line line)) ∧
    validateProgram (good ++ line :: rest) = .error (.malformedInstruction good.length (.line line)))

/-- 70_reset_and_hazards.md section 1 (that randomise comes before the pairs is the spec's decision D15): a register pair
performs `write_register` and a memory pair `MemWrite`; pairs are applied in the order given, on the state that
construction reaches without them; after a pair that goes through its location reads its value and nothing else has
changed, a pair for index 31 having no effect; and an earlier pair for the location of a later one makes no difference,
whatever pairs stand between. -/
def Obligations.LaterPairForSameLocationWins : Prop :=
  (∀ (s : State) (k : Int) (v : Word), preconfigure s [(.register k, v)] = writeRegister s k v) ∧
  (∀ (s : State) (a : Int) (v : Word), preconfigure s [(.memory a, v)] = writeDoubleWord s a v) ∧
  (∀ (s : State) (v : Word), preconfigure s [(.register 31, v)] = .ok s) ∧
  (∀ (s t : State) (ps qs : List (Location × Word)), preconfigure s ps = .ok t →
    preconfigure s (ps ++ qs) = preconfigure t qs) ∧
  (∀ (words : List InsnWord) (r : Option Randomisation) (ps : List (Location × Word)) (s : State),
    construct words ⟨r, []⟩ = .ok s → construct words ⟨r, ps⟩ = preconfigure s ps) ∧
  (∀ (lines : List AsmLine) (r : Option Randomisation) (ps : List (Location × Word)) (s : State),
    constructText lines ⟨r, []⟩ = .ok s → constructText lines ⟨r, ps⟩ = preconfigure s ps) ∧
  (∀ (s u : State) (ps : List (Location × Word)) (i : RegIndex) (w : Word), preconfigure s ps = .ok u →
    ∃ t, preconfigure s (ps ++ [(.register i.val, w)]) = .ok t ∧ (i ≠ 31 → t.x i = w) ∧ t.x 31 = 0 ∧
      SameRegsExcept i u t ∧ SameMem u t ∧ t.pc = u.pc ∧ t.prog = u.prog) ∧
  (∀ (s u : State) (ps : List (Location × Word)) (a : Int) (w : Word), Memory.wf s.mem → preconfigure s ps = .ok u →
    a % 8 = 0 → 0 ≤ a → a ≤ 248 →
    ∃ t, preconfigure s (ps ++ [(.memory a, w)]) = .ok t ∧ readDoubleWord t a = .ok w ∧ Memory.wf t.mem ∧
      SameMemOutside a u t ∧ SameRegs u t ∧ t.pc = u.pc ∧ t.prog = u.prog) ∧
  (∀ (s : State) (loc : Location) (v w : Word), Memory.wf s.mem →
    preconfigure s [(loc, v), (loc, w)] = preconfigure s [(loc, w)]) ∧
  (∀ (s t : State) (loc : Location) (v w : Word) (between : List (Location × Word)), Memory.wf s.mem →
    (preconfigure s ((loc, v) :: between ++ [(loc, w)]) = .ok t ↔ preconfigure s (between ++ [(loc, w)]) = .ok t))

/-- 70_reset_and_hazards.md section 1 (the spec's decision D15; log 15): a pair that fails makes construction fail,
with the fault of the write: `AlignmentError`, `BoundsError` or `IndexOutOfRange`. -/
def Obligations.FailingPairFailsConstruction : Prop :=
  ∀ (words : List InsnWord) (o : LaunchOptions) (s : State) (p : Location × Word) (later : List (Location × Word)),
    construct words o = .ok s →
    (∀ f, applyPair s p = .error f →
      construct words { o with pairs := o.pairs ++ p :: later } = .error f) ∧
    (∀ (addr : Int) (v : Word), p = (.memory addr, v) → addr % 8 ≠ 0 → applyPair s p = .error (.alignmentError addr)) ∧
    (∀ (addr : Int) (v : Word), p = (.memory addr, v) → addr % 8 = 0 → addr < 0 ∨ 248 < addr →
      applyPair s p = .error (.boundsError addr)) ∧
    (∀ (k : Int) (v : Word), p = (.register k, v) → k < 0 ∨ 31 < k → applyPair s p = .error (.indexOutOfRange k))

/-- 10_state.md section 2 (for reads outside 0 to 31 the spec's decision D17): the host's numeric register accessors.
-/
def Obligations.RegisterAccessorsCheckIndex : Prop :=
  ∀ (s : State) (k : Int) (v : Word),
    (k < 0 ∨ 31 < k → writeRegister s k v = .error (.indexOutOfRange k) ∧ readRegister s k = .error (.indexOutOfRange k)) ∧
    (∀ i : RegIndex, k = i.val → readRegister s k = .ok (s.x i) ∧ ∃ t, writeRegister s k v = .ok t ∧
      readRegister t k = .ok (if i = 31 then 0 else v) ∧ SameRegsExcept i s t ∧ SameMem s t ∧
      t.pc = s.pc ∧ t.prog = s.prog)

/-- 10_state.md section 2 (rule R26; that `X07` is refused is the spec's decision D14): a name resolves to an index
exactly when in upper case it is `X` and the index's decimal digits, or `XZR` for index 31; anything else is
`InvalidRegister`. -/
def Obligations.RegisterNamesResolve : Prop :=
  (∀ i : RegIndex, resolveName ('X' :: Asm.digits i.val) = .ok i ∧ resolveName ('x' :: Asm.digits i.val) = .ok i) ∧
  (∀ (name : List Char) (i : RegIndex), resolveName name = .ok i ↔
    name.map Char.toUpper = 'X' :: Asm.digits i.val ∨ (i = 31 ∧ name.map Char.toUpper = ['X', 'Z', 'R'])) ∧
  (∀ name : List Char, name.map Char.toUpper = ['X', 'Z', 'R'] → resolveName name = .ok 31) ∧
  (∀ (name : List Char) (s : State) (v : Word), (∀ i, resolveName name ≠ .ok i) →
    readRegisterByName s name = .error (.invalidRegister name) ∧
    writeRegisterByName s name v = .error (.invalidRegister name)) ∧
  (∀ (name : List Char) (i : RegIndex) (s : State) (v : Word), resolveName name = .ok i →
    readRegisterByName s name = readRegister s i.val ∧ writeRegisterByName s name v = writeRegister s i.val v)

/-- Rule R43, whole: two instances are equal iff registers and memory are equal element by element; `pc` and program
are not compared. For memories in canonical form this is equality of the data. -/
def Obligations.EqualityComparesRegistersAndMemory : Prop :=
  ∀ s t : State,
    (equalInstances s t = true ↔ (∀ r : RegIndex, s.x r = t.x r) ∧ ∀ a < 256, s.mem.read a = t.mem.read a) ∧
    (Memory.wf s.mem → Memory.wf t.mem → (equalInstances s t = true ↔ s.regs = t.regs ∧ s.mem = t.mem))

/-- 10_state.md section 7: what the snapshots hold. -/
def Obligations.SnapshotsShowRegistersAndMemory : Prop :=
  ∀ s : State, readPc s = s.pc ∧ (registerSnapshot s)[31] = 0 ∧
    (∀ i : RegIndex, (registerSnapshot s)[i.val] = s.x i) ∧
    (∀ a : Fin 256, (memorySnapshot s)[a.val] = s.mem.read a.val)

/-! ### Encoding -/

/-- 30_encoding.md section 1 (D1): for every well-formed instruction, `word_decode(word_encode(I)) = I`. -/
def Obligations.DecodeInvertsEncode : Prop :=
  ∀ i : Instr, i.wellFormed = true → decode (encode i) = .ok i

/-- 30_encoding.md section 1 (D1): every word that decodes gives a well-formed instruction, and encoding it gives the
word back. -/
def Obligations.EncodeInvertsDecode : Prop :=
  ∀ (w : InsnWord) (i : Instr), decode w = .ok i → i.wellFormed = true ∧ encode i = w

/-- 30_encoding.md section 2 (D1): no two rows of the opcode table match the same word, and a word that matches a row
decodes to that row's opcode. -/
def Obligations.OpcodeRowsNeverOverlap : Prop :=
  (∀ (w : InsnWord) (p q : Opcode), p.isRowOf w = true → q.isRowOf w = true → p = q) ∧
  (∀ (w : InsnWord) (p : Opcode), p.isRowOf w = true → ∃ i, decode w = .ok i ∧ i.opcode = p)

/-- 30_encoding.md section 3 (D2, D3): a word that matches no row is rejected under its name, and so is every word
with the opcode of ADD, SUB, LDUR or STUR and a must-be-zero field that is not zero. -/
def Obligations.OtherWordsAreMalformed : Prop :=
  (∀ w : InsnWord, (∀ op : Opcode, op.isRowOf w = false) → decode w = .error (.word w)) ∧
  (∀ w : InsnWord, (w.extractLsb' 21 11 = 0b10001011000 ∨ w.extractLsb' 21 11 = 0b11001011000) →
    w.extractLsb' 10 6 ≠ 0 → decode w = .error (.word w)) ∧
  (∀ w : InsnWord, (w.extractLsb' 21 11 = 0b11111000010 ∨ w.extractLsb' 21 11 = 0b11111000000) →
    w.extractLsb' 10 2 ≠ 0 → decode w = .error (.word w))

/-- 30_encoding.md section 2 (D1): the encoder puts the fields of a well-formed instruction in the places of the
format tables, most significant first. -/
def Obligations.EncodeConcatenatesFormatFields : Prop :=
  (∀ d n m : RegIndex,
    encode (.add d n m) = 0b10001011000#11 ++ BitVec.ofNat 5 m ++ 0b000000#6 ++ BitVec.ofNat 5 n ++ BitVec.ofNat 5 d ∧
    encode (.sub d n m) = 0b11001011000#11 ++ BitVec.ofNat 5 m ++ 0b000000#6 ++ BitVec.ofNat 5 n ++ BitVec.ofNat 5 d) ∧
  (∀ (d n : RegIndex) (imm : Int), 0 ≤ imm → imm ≤ 4095 →
    encode (.addi d n imm) = 0b1001000100#10 ++ BitVec.ofInt 12 imm ++ BitVec.ofNat 5 n ++ BitVec.ofNat 5 d ∧
    encode (.subi d n imm) = 0b1101000100#10 ++ BitVec.ofInt 12 imm ++ BitVec.ofNat 5 n ++ BitVec.ofNat 5 d) ∧
  (∀ (t n : RegIndex) (imm : Int), -256 ≤ imm → imm ≤ 255 →
    encode (.ldur t n imm) = 0b11111000010#11 ++ BitVec.ofInt 9 imm ++ 0b00#2 ++ BitVec.ofNat 5 n ++ BitVec.ofNat 5 t ∧
    encode (.stur t n imm) = 0b11111000000#11 ++ BitVec.ofInt 9 imm ++ 0b00#2 ++ BitVec.ofNat 5 n ++ BitVec.ofNat 5 t) ∧
  (∀ imm : Int, -33554432 ≤ imm → imm ≤ 33554431 → encode (.b imm) = 0b000101#6 ++ BitVec.ofInt 26 imm) ∧
  (∀ (t : RegIndex) (imm : Int), -262144 ≤ imm → imm ≤ 262143 →
    encode (.cbz t imm) = 0b10110100#8 ++ BitVec.ofInt 19 imm ++ BitVec.ofNat 5 t ∧
    encode (.cbnz t imm) = 0b10110101#8 ++ BitVec.ofInt 19 imm ++ BitVec.ofNat 5 t)

/-- 95_test_vectors.md section 2.1 (V1, V2, V4, V6, V8, V10, V12, V15, V17): one word of each row, written out bit by
bit, decodes to its instruction (bit values: D1). -/
def Obligations.WrittenOutWordsDecode : Prop :=
  decode 0b10001011000_00011_000000_00010_00001#32 = .ok (.add 1 2 3) ∧
  decode 0b11001011000_00011_000000_00010_00001#32 = .ok (.sub 1 2 3) ∧
  decode 0b1001000100_111111111111_00010_00001#32 = .ok (.addi 1 2 4095) ∧
  decode 0b1101000100_000000000001_00010_00010#32 = .ok (.subi 2 2 1) ∧
  decode 0b11111000010_100000000_00_00010_00001#32 = .ok (.ldur 1 2 (-256)) ∧
  decode 0b11111000000_111111000_00_00000_00011#32 = .ok (.stur 3 0 (-8)) ∧
  decode 0b000101_01111111111111111111111111#32 = .ok (.b 33554431) ∧
  decode 0b10110100_1111111111111111100_00000#32 = .ok (.cbz 0 (-4)) ∧
  decode 0b10110101_1000000000000000000_11110#32 = .ok (.cbnz 30 (-262144))

/-! ### Assembly text -/

/-- 30_encoding.md sections 4 and 5: the canonical text of every well-formed instruction decodes to it. -/
def Obligations.AssemblyTextRoundTrip : Prop :=
  ∀ i : Instr, i.wellFormed = true → Asm.asmDecode (Asm.print i) = .ok i

/-- 30_encoding.md section 4 (the spec's decision D20): what `asm_decode` accepts is well-formed, its word decodes to
it, and the validator accepts exactly the lines it decodes. -/
def Obligations.AcceptedLinesAreWellFormed : Prop :=
  (∀ (line : AsmLine) (i : Instr), Asm.asmDecode line = .ok i → i.wellFormed = true ∧ decode (encode i) = .ok i) ∧
  (∀ line : AsmLine, Asm.validate line = .ok () ↔ ∃ i, Asm.asmDecode line = .ok i) ∧
  (∀ line : AsmLine, (∀ i, Asm.asmDecode line ≠ .ok i) → Asm.asmDecode line = .error (.line line))

/-- 30_encoding.md section 4: opcode and register names are read in either case of letters. -/
def Obligations.LetterCaseDoesNotMatter : Prop :=
  ∀ (line line' : AsmLine) (i : Instr), line.map Char.toUpper = line'.map Char.toUpper →
    Asm.asmDecode line = .ok i → Asm.asmDecode line' = .ok i

/-- 30_encoding.md sections 1 and 4 (the spec's decisions D1, D20): an instance constructed from text is the one
constructed from the words of its lines, and entry `k` decodes to what line `k` decodes to. -/
def Obligations.TextAndWordProgramsAgree : Prop :=
  ∀ (lines : List AsmLine) (o : LaunchOptions) (s : State), constructText lines o = .ok s →
    construct s.prog o = .ok s ∧ s.prog.length = lines.length ∧
    ∀ (k : Nat) (h : k < lines.length) (h' : k < s.prog.length),
      decode s.prog[k] = Asm.asmDecode lines[k]
end

