-- ==== Sys2Proof/Laws/Memory.lean ====
section
/-! SUPPORT. Laws/Memory.lean: every memory operation keeps the canonical form, a read after a write, and equal
contents are equal data (20_memory.md rules R66, R67, R71). -/

namespace Sys2Proof.Machine.Memory

/-- Every listed address is at least `lo`. -/
abbrev From (lo : Nat) (m : Memory) : Prop := ∀ c ∈ m, lo ≤ c.1

theorem wf_nil : wf [] := ⟨List.Pairwise.nil, by simp⟩

/-- The memory after reset is in canonical form. -/
theorem wf_reset : wf State.reset.mem := wf_nil

theorem wf_cons_iff {c : Host.Cell} {m : Memory} :
    wf (c :: m) ↔ (c.1 < Config.memSize ∧ c.2 ≠ Config.unlistedByte) ∧ From (c.1 + 1) m ∧ wf m := by
  simp only [wf, List.pairwise_cons, List.forall_mem_cons, From]
  constructor
  · rintro ⟨⟨h1, h2⟩, h3, h4⟩; exact ⟨h3, h1, h2, h4⟩
  · rintro ⟨h3, h1, h2, h4⟩; exact ⟨⟨h1, h2⟩, h3, h4⟩

@[simp] theorem read_nil (a : Nat) : read [] a = Config.unlistedByte := rfl

theorem read_cons_cell (k : Nat) (v : Byte) (m : Memory) (a : Nat) :
    read ((k, v) :: m) a = if k = a then v else read m a := rfl

/-- A cell below every listed address reads as an unlisted one. -/
theorem read_below {m : Memory} {lo a : Nat} (h : From lo m) (ha : a < lo) : read m a = Config.unlistedByte := by
  induction m with
  | nil => rfl
  | cons c m ih =>
    obtain ⟨k, v⟩ := c
    have hk : lo ≤ k := h (k, v) (by simp)
    rw [read_cons_cell, if_neg (by omega)]
    exact ih fun c hc => h c (by simp [hc])

theorem read_cons {m : Memory} {a : Nat} (h : From (a + 1) m) (b : Byte) (a' : Nat) :
    read (cons a b m) a' = if a = a' then b else read m a' := by
  unfold cons
  split
  · next hb =>
    by_cases e : a = a'
    · subst e; simp [read_below h (by omega : a < a + 1), hb]
    · simp [e]
  · rfl

theorem from_cons {m : Memory} {a lo : Nat} {b : Byte} (h : From lo m) (ha : lo ≤ a) : From lo (cons a b m) := by
  unfold cons
  split
  · exact h
  · intro c hc
    rcases List.mem_cons.mp hc with rfl | hc
    · exact ha
    · exact h c hc

theorem wf_cons {m : Memory} {a : Nat} {b : Byte} (ha : a < Config.memSize) (h : From (a + 1) m) (hm : wf m) :
    wf (cons a b m) := by
  unfold cons
  split
  · exact hm
  · next hb => exact wf_cons_iff.mpr ⟨⟨ha, hb⟩, h, hm⟩

theorem from_mono {m : Memory} {lo lo' : Nat} (h : From lo' m) (hl : lo ≤ lo') : From lo m :=
  fun c hc => le_trans hl (h c hc)

theorem from_write {m : Memory} {lo a : Nat} {b : Byte} (h : From lo m) (ha : lo ≤ a) : From lo (write m a b) := by
  induction m with
  | nil => exact from_cons h ha
  | cons c m ih =>
    obtain ⟨k, v⟩ := c
    have htl : From lo m := fun c hc => h c (by simp [hc])
    unfold write
    split
    · exact from_cons h ha
    · split
      · exact from_cons htl ha
      · intro c hc
        rcases List.mem_cons.mp hc with rfl | hc
        · exact h (k, v) (by simp)
        · exact ih htl c hc

/-- A write of one byte keeps the canonical form. -/
theorem wf_write {m : Memory} {a : Nat} {b : Byte} (hm : wf m) (ha : a < Config.memSize) : wf (write m a b) := by
  induction m with
  | nil => exact wf_cons ha (by simp) hm
  | cons c m ih =>
    obtain ⟨k, v⟩ := c
    obtain ⟨hc, hfrom, htl⟩ := wf_cons_iff.mp hm
    unfold write
    split
    · next hlt =>
      refine wf_cons ha ?_ hm
      intro c hc'
      rcases List.mem_cons.mp hc' with rfl | hc'
      · exact hlt
      · have h1 : k + 1 ≤ c.1 := hfrom c hc'
        omega
    · next hnlt =>
      split
      · next he => subst he; exact wf_cons ha hfrom htl
      · next hne => exact wf_cons_iff.mpr ⟨hc, from_write hfrom (by show k + 1 ≤ a; omega), ih htl⟩

/-- A read after a write of one byte. -/
theorem read_write {m : Memory} (hm : wf m) (a : Nat) (b : Byte) (a' : Nat) :
    read (write m a b) a' = if a = a' then b else read m a' := by
  induction m with
  | nil => exact read_cons (by simp) b a'
  | cons c m ih =>
    obtain ⟨k, v⟩ := c
    obtain ⟨hc, hfrom, htl⟩ := wf_cons_iff.mp hm
    unfold write
    split
    · next hlt =>
      refine read_cons ?_ b a'
      intro c hc'
      rcases List.mem_cons.mp hc' with rfl | hc'
      · exact hlt
      · have h1 : k + 1 ≤ c.1 := hfrom c hc'
        omega
    · split
      · next he =>
        subst he
        rw [read_cons hfrom, read_cons_cell]
        by_cases e : a = a' <;> simp [e]
      · next hnlt hne =>
        rw [read_cons_cell, read_cons_cell, ih htl]
        by_cases e : k = a'
        · have : a ≠ a' := by omega
          simp [e, this]
        · simp [e]

/-- Memories in canonical form with equal contents are equal data. -/
theorem ext_of_read {m m' : Memory} (hm : wf m) (hm' : wf m') (h : ∀ a, read m a = read m' a) : m = m' := by
  induction m generalizing m' with
  | nil =>
    cases m' with
    | nil => rfl
    | cons c m' =>
      obtain ⟨k, v⟩ := c
      have := (wf_cons_iff.mp hm').1.2
      have := h k
      simp [read_cons_cell] at this
      simp_all
  | cons c m ih =>
    obtain ⟨k, v⟩ := c
    obtain ⟨⟨hk, hv⟩, hfrom, htl⟩ := wf_cons_iff.mp hm
    cases m' with
    | nil =>
      have := h k
      simp [read_cons_cell] at this
      exact absurd this hv
    | cons c' m' =>
      obtain ⟨k', v'⟩ := c'
      obtain ⟨⟨hk', hv'⟩, hfrom', htl'⟩ := wf_cons_iff.mp hm'
      have below : ∀ a, a < k + 1 → read m a = Config.unlistedByte := fun a => read_below hfrom
      have below' : ∀ a, a < k' + 1 → read m' a = Config.unlistedByte := fun a => read_below hfrom'
      have hkk : k = k' := by
        by_contra hne
        rcases Nat.lt_or_gt_of_ne hne with hlt | hgt
        · have := h k
          rw [read_cons_cell, read_cons_cell, if_pos rfl, if_neg (by omega), below' k (by omega)] at this
          exact hv this
        · have := h k'
          rw [read_cons_cell, read_cons_cell, if_pos rfl, if_neg (by omega), below k' (by omega)] at this
          exact hv' this.symm
      subst hkk
      have hvv : v = v' := by simpa [read_cons_cell] using h k
      subst hvv
      congr 1
      refine ih htl htl' fun a => ?_
      have := h a
      rw [read_cons_cell, read_cons_cell] at this
      by_cases e : k = a
      · subst e; rw [below k (by omega), below' k (by omega)]
      · simpa [e] using this

/-- Every byte after the first `n` of the byte writes of a double-word write. -/
theorem read_foldl_write {m : Memory} (a : Nat) (v : Word) (hm : wf m) (n : Nat) (ha : a + n ≤ Config.memSize) :
    wf ((List.range n).foldl (fun m j => write m (a + j) (byteOf v j)) m) ∧
    ∀ a', read ((List.range n).foldl (fun m j => write m (a + j) (byteOf v j)) m) a' =
      if a ≤ a' ∧ a' < a + n then byteOf v (a' - a) else read m a' := by
  induction n with
  | zero => exact ⟨hm, fun a' => by rw [if_neg (by omega)]; rfl⟩
  | succ n ih =>
    obtain ⟨hwf, hread⟩ := ih (by omega)
    rw [List.range_succ, List.foldl_append, List.foldl_cons, List.foldl_nil]
    refine ⟨wf_write hwf (by omega), fun a' => ?_⟩
    rw [read_write hwf, hread]
    by_cases e : a + n = a'
    · rw [if_pos e, if_pos (by omega), ← e]
      congr 1
      omega
    · rw [if_neg e]
      by_cases h : a ≤ a' ∧ a' < a + n
      · rw [if_pos h, if_pos (by omega)]
      · rw [if_neg h, if_neg (by omega)]

/-- A double-word write inside memory keeps the canonical form. -/
theorem wf_writeDouble {m : Memory} {a : Nat} (v : Word) (hm : wf m) (ha : a + 8 ≤ Config.memSize) :
    wf (writeDouble m a v) :=
  (read_foldl_write a v hm 8 ha).1

/-- Every byte after a double-word write. -/
theorem read_writeDouble {m : Memory} {a : Nat} (v : Word) (hm : wf m) (ha : a + 8 ≤ Config.memSize) (a' : Nat) :
    read (writeDouble m a v) a' = if a ≤ a' ∧ a' < a + 8 then byteOf v (a' - a) else read m a' :=
  (read_foldl_write a v hm 8 ha).2 a'

/-- The memory of a list of bytes keeps the canonical form. -/
theorem wf_ofBytes (bs : List Byte) (start : Nat) (h : start + bs.length ≤ Config.memSize) :
    wf (ofBytes start bs) ∧ From start (ofBytes start bs) := by
  induction bs generalizing start with
  | nil => exact ⟨wf_nil, by simp [ofBytes]⟩
  | cons b bs ih =>
    simp only [List.length_cons] at h
    obtain ⟨hwf, hfrom⟩ := ih (start + 1) (by omega)
    exact ⟨wf_cons (by omega) hfrom hwf, from_cons (from_mono hfrom (by omega)) (le_refl _)⟩

/-- What a cell of the memory of a list of bytes reads as. -/
theorem read_ofBytes (bs : List Byte) (start a : Nat) (h : start + bs.length ≤ Config.memSize) :
    read (ofBytes start bs) a =
      if start ≤ a then bs.getD (a - start) Config.unlistedByte else Config.unlistedByte := by
  induction bs generalizing start with
  | nil => simp [ofBytes]
  | cons b bs ih =>
    simp only [List.length_cons] at h
    obtain ⟨-, hfrom⟩ := wf_ofBytes bs (start + 1) (by omega)
    rw [ofBytes, read_cons hfrom, ih (start + 1) (by omega)]
    by_cases e : start = a
    · subst e; simp
    · rw [if_neg e]
      by_cases hle : start ≤ a
      · obtain ⟨d, rfl⟩ : ∃ d, a = start + 1 + d := ⟨a - start - 1, by omega⟩
        rw [if_pos (by omega), if_pos hle, show start + 1 + d - start = d + 1 by omega]
        simp
      · rw [if_neg (by omega), if_neg hle]

/-- One byte of a double word that was put together from memory. -/
theorem byteOf_readDouble (m : Memory) (a : Nat) {j : Nat} (hj : j < 8) :
    byteOf (readDouble m a) j = read m (a + j) := by
  unfold byteOf readDouble
  apply BitVec.eq_of_getLsbD_eq
  intro i hi
  interval_cases j <;>
    (simp only [BitVec.getLsbD_extractLsb', BitVec.getLsbD_append]; interval_cases i <;> simp)

/-- A double word is determined by its eight bytes. -/
theorem word_ext_of_bytes {v w : Word} (h : ∀ j < 8, byteOf v j = byteOf w j) : v = w := by
  apply BitVec.eq_of_getLsbD_eq
  intro i hi
  have hb := congrArg (fun b => b.getLsbD (i % 8)) (h (7 - i / 8) (by omega))
  simp only [byteOf, BitVec.getLsbD_extractLsb'] at hb
  rw [show 56 - 8 * (7 - i / 8) + i % 8 = i by omega] at hb
  simpa [show i % 8 < 8 by omega] using hb

end Sys2Proof.Machine.Memory
end

