-- ==== Sys2Proof/Laws/State.lean ====
section
/-! SUPPORT. Laws/State.lean: one lemma per field per update of State, and the read-after-write laws of the register
file (10_state.md rule R22). -/

namespace Sys2Proof.Machine.State

@[simp] theorem setPc_pc (s : State) (t : Word) : (s.setPc t).pc = t := rfl
@[simp] theorem setPc_regs (s : State) (t : Word) : (s.setPc t).regs = s.regs := rfl
@[simp] theorem setPc_mem (s : State) (t : Word) : (s.setPc t).mem = s.mem := rfl
@[simp] theorem setPc_prog (s : State) (t : Word) : (s.setPc t).prog = s.prog := rfl
@[simp] theorem setPc_x (s : State) (t : Word) (i : RegIndex) : (s.setPc t).x i = s.x i := rfl

@[simp] theorem advance_pc (s : State) : s.advance.pc = s.pc + 4 := rfl
@[simp] theorem advance_regs (s : State) : s.advance.regs = s.regs := rfl
@[simp] theorem advance_mem (s : State) : s.advance.mem = s.mem := rfl
@[simp] theorem advance_prog (s : State) : s.advance.prog = s.prog := rfl
@[simp] theorem advance_x (s : State) (i : RegIndex) : s.advance.x i = s.x i := rfl

@[simp] theorem jump_pc (s : State) (imm : Int) : (s.jump imm).pc = s.pc + BitVec.ofInt 64 (4 * imm) := rfl
@[simp] theorem jump_regs (s : State) (imm : Int) : (s.jump imm).regs = s.regs := rfl
@[simp] theorem jump_mem (s : State) (imm : Int) : (s.jump imm).mem = s.mem := rfl
@[simp] theorem jump_prog (s : State) (imm : Int) : (s.jump imm).prog = s.prog := rfl
@[simp] theorem jump_x (s : State) (imm : Int) (i : RegIndex) : (s.jump imm).x i = s.x i := rfl

@[simp] theorem setMem_pc (s : State) (m : Memory) : (s.setMem m).pc = s.pc := rfl
@[simp] theorem setMem_regs (s : State) (m : Memory) : (s.setMem m).regs = s.regs := rfl
@[simp] theorem setMem_mem (s : State) (m : Memory) : (s.setMem m).mem = m := rfl
@[simp] theorem setMem_prog (s : State) (m : Memory) : (s.setMem m).prog = s.prog := rfl
@[simp] theorem setMem_x (s : State) (m : Memory) (i : RegIndex) : (s.setMem m).x i = s.x i := rfl

@[simp] theorem setX_pc (s : State) (i : RegIndex) (v : Word) : (s.setX i v).pc = s.pc := by
  unfold setX; split <;> rfl
@[simp] theorem setX_mem (s : State) (i : RegIndex) (v : Word) : (s.setX i v).mem = s.mem := by
  unfold setX; split <;> rfl
@[simp] theorem setX_prog (s : State) (i : RegIndex) (v : Word) : (s.setX i v).prog = s.prog := by
  unfold setX; split <;> rfl

/-- Writing index 31 changes nothing. -/
@[simp] theorem setX_zeroReg (s : State) (v : Word) : s.setX 31 v = s := rfl

/-- Index 31 reads as zero. -/
@[simp] theorem x_zeroReg (s : State) : s.x 31 = 0 := rfl

/-- An index other than 31 has a slot. -/
theorem val_lt_zeroReg {i : RegIndex} (h : i ≠ 31) : i.val < Config.zeroReg := by
  have : i.val ≠ 31 := fun h' => h (Fin.ext h')
  have := i.isLt
  show i.val < 31
  omega

/-- Every register after a write. -/
theorem x_setX (s : State) (i r : RegIndex) (v : Word) :
    (s.setX i v).x r = if r = i ∧ r ≠ 31 then v else s.x r := by
  by_cases hi : i = 31
  · subst hi; simp
  · have hlt := val_lt_zeroReg hi
    by_cases hr : r = 31
    · subst hr; simp
    · have hr' := val_lt_zeroReg hr
      simp only [x, setX, hlt, hr', dif_pos, ne_eq, hr, not_false_eq_true, and_true]
      by_cases h : r = i
      · subst h; simp
      · have : i.val ≠ r.val := fun h' => h (Fin.ext h'.symm)
        simp [h, this]

@[simp] theorem x_setX_self {i : RegIndex} (s : State) (v : Word) (h : i ≠ 31) : (s.setX i v).x i = v := by
  simp [x_setX, h]

theorem x_setX_other {i r : RegIndex} (s : State) (v : Word) (h : r ≠ i) : (s.setX i v).x r = s.x r := by
  simp [x_setX, h]

/-- The register file is determined by what its registers read as. -/
theorem regs_ext {s t : State} (h : ∀ r : RegIndex, s.x r = t.x r) : s.regs = t.regs := by
  apply Vector.ext
  intro i hi
  have := h ⟨i, by have : i < 31 := hi; omega⟩
  simpa [x, hi] using this

/-! The engine states as comparisons of naturals. -/

theorem progEnd_eq (s : State) : s.progEnd = 4 * s.prog.length := rfl
theorem running_iff (s : State) : s.running = true ↔ s.pc.toNat < s.progEnd := decide_eq_true_iff
theorem halted_iff (s : State) : s.halted = true ↔ s.progEnd ≤ s.pc.toNat := decide_eq_true_iff
theorem cleanHalt_iff (s : State) : s.cleanHalt = true ↔ s.pc.toNat = s.progEnd := decide_eq_true_iff
theorem overrun_iff (s : State) : s.overrun = true ↔ s.progEnd < s.pc.toNat := decide_eq_true_iff

end Sys2Proof.Machine.State
end

