-- ==== Sys2Proof/Laws/Operands.lean ====
section
/-! SUPPORT. Laws/Operands.lean: everything the shared checks can do: the double-word check, `memRead`, `memWrite`, the
resolution of a register operand, the re-validation of an immediate. -/

namespace Sys2Proof.Machine

theorem checkDouble_misaligned {addr : Int} (h : addr % 8 ≠ 0) :
    checkDouble addr = .error (.alignmentError addr) := if_pos h

theorem checkDouble_outside {addr : Int} (ha : addr % 8 = 0) (h : addr < 0 ∨ 248 < addr) :
    checkDouble addr = .error (.boundsError addr) := by
  rw [checkDouble, if_neg (by simpa using ha), if_pos (by omega)]

theorem checkDouble_inside {addr : Int} (ha : addr % 8 = 0) (h0 : 0 ≤ addr) (h1 : addr ≤ 248) :
    checkDouble addr = .ok addr.toNat := by
  rw [checkDouble, if_neg (by simpa using ha), if_neg (by omega)]

/-- The double-word check: one of its three outcomes, with its condition. -/
theorem checkDouble_cases (addr : Int) :
    (addr % 8 ≠ 0 ∧ checkDouble addr = .error (.alignmentError addr)) ∨
    (addr % 8 = 0 ∧ (addr < 0 ∨ 248 < addr) ∧ checkDouble addr = .error (.boundsError addr)) ∨
    (addr % 8 = 0 ∧ 0 ≤ addr ∧ addr ≤ 248 ∧ checkDouble addr = .ok addr.toNat) := by
  by_cases ha : addr % 8 = 0
  · by_cases h : addr < 0 ∨ 248 < addr
    · exact .inr (.inl ⟨ha, h, checkDouble_outside ha h⟩)
    · exact .inr (.inr ⟨ha, by omega, by omega, checkDouble_inside ha (by omega) (by omega)⟩)
  · exact .inl ⟨ha, checkDouble_misaligned ha⟩

/-- A read that succeeds: its condition and its value. -/
theorem memRead_ok {m : Memory} {addr : Int} {v : Word} (h : memRead m addr = .ok v) :
    addr % 8 = 0 ∧ 0 ≤ addr ∧ addr ≤ 248 ∧ v = m.readDouble addr.toNat := by
  unfold memRead at h
  rcases checkDouble_cases addr with ⟨-, e⟩ | ⟨-, -, e⟩ | ⟨ha, h0, h1, e⟩ <;> rw [e] at h <;> cases h
  exact ⟨ha, h0, h1, rfl⟩

/-- A write that succeeds: its condition and the memory it leaves. -/
theorem memWrite_ok {m m' : Memory} {addr : Int} {v : Word} (h : memWrite m addr v = .ok m') :
    addr % 8 = 0 ∧ 0 ≤ addr ∧ addr ≤ 248 ∧ m' = m.writeDouble addr.toNat v := by
  unfold memWrite at h
  rcases checkDouble_cases addr with ⟨-, e⟩ | ⟨-, -, e⟩ | ⟨ha, h0, h1, e⟩ <;> rw [e] at h <;> cases h
  exact ⟨ha, h0, h1, rfl⟩

/-- The faults of a read. -/
theorem memRead_error {m : Memory} {addr : Int} {f : Fault} (h : memRead m addr = .error f) :
    f = .alignmentError addr ∨ f = .boundsError addr := by
  unfold memRead at h
  rcases checkDouble_cases addr with ⟨-, e⟩ | ⟨-, -, e⟩ | ⟨-, -, -, e⟩ <;> rw [e] at h <;> cases h
  exacts [.inl rfl, .inr rfl]

/-- The faults of a write. -/
theorem memWrite_error {m : Memory} {addr : Int} {v : Word} {f : Fault} (h : memWrite m addr v = .error f) :
    f = .alignmentError addr ∨ f = .boundsError addr := by
  unfold memWrite at h
  rcases checkDouble_cases addr with ⟨-, e⟩ | ⟨-, -, e⟩ | ⟨-, -, -, e⟩ <;> rw [e] at h <;> cases h
  exacts [.inl rfl, .inr rfl]

/-- A checked write keeps the canonical form. -/
theorem wf_memWrite {m m' : Memory} {addr : Int} {v : Word} (h : memWrite m addr v = .ok m') (hm : m.wf) : m'.wf := by
  obtain ⟨-, h0, h1, rfl⟩ := memWrite_ok h
  exact Memory.wf_writeDouble v hm (by show addr.toNat + 8 ≤ 256; omega)

/-- Every byte after a checked write. -/
theorem read_memWrite {m m' : Memory} {addr : Int} {v : Word} (h : memWrite m addr v = .ok m') (hm : m.wf) (a : Nat) :
    m'.read a = if addr ≤ (a : Int) ∧ (a : Int) < addr + 8 then Memory.byteOf v (a - addr.toNat) else m.read a := by
  obtain ⟨-, h0, h1, rfl⟩ := memWrite_ok h
  rw [Memory.read_writeDouble v hm (by show addr.toNat + 8 ≤ 256; omega)]
  by_cases e : addr.toNat ≤ a ∧ a < addr.toNat + 8
  · rw [if_pos e, if_pos (by omega)]
  · rw [if_neg e, if_neg (by omega)]

@[simp] theorem withReg_index (r : RegIndex) (body : RegIndex → Host.Outcome State Fault Refusal) :
    withReg r.val body = body r := dif_pos r.isLt

theorem withReg_lt {r : Nat} (h : r < 32) (body : RegIndex → Host.Outcome State Fault Refusal) :
    withReg r body = body ⟨r, h⟩ := dif_pos h

theorem withReg_ge {r : Nat} (h : 32 ≤ r) (body : RegIndex → Host.Outcome State Fault Refusal) :
    withReg r body = raise (.invalidRegister ('X' :: Asm.digits r)) := dif_neg (by show ¬ r < 32; omega)

/-- A register operand of an instruction that goes on. -/
theorem withReg_next {r : Nat} {body : RegIndex → Host.Outcome State Fault Refusal} {t : State}
    (h : withReg r body = .next t) : ∃ i : RegIndex, i.val = r ∧ body i = .next t := by
  unfold withReg at h
  split at h
  · next hr => exact ⟨⟨r, hr⟩, rfl, h⟩
  · cases h

@[simp] theorem withImm_in {range : ImmRange} {imm : Int} (h : range.contains imm = true)
    (body : Host.Outcome State Fault Refusal) : withImm range imm body = body := if_pos h

theorem withImm_out {range : ImmRange} {imm : Int} (h : range.contains imm = false)
    (body : Host.Outcome State Fault Refusal) : withImm range imm body = raise (.invalidImmediate imm) := by
  simp [withImm, h]

/-- An immediate operand of an instruction that goes on. -/
theorem withImm_next {range : ImmRange} {imm : Int} {body : Host.Outcome State Fault Refusal} {t : State}
    (h : withImm range imm body = .next t) : range.contains imm = true ∧ body = .next t := by
  unfold withImm at h
  split at h
  · next hr => exact ⟨hr, h⟩
  · cases h

theorem contains_iff (range : ImmRange) (k : Int) : range.contains k = true ↔ range.lo ≤ k ∧ k ≤ range.hi := by
  simp [ImmRange.contains]

end Sys2Proof.Machine
end

