-- ==== Sys2Proof/Laws/HostInterface.lean ====
section
/-! SUPPORT. Laws/HostInterface.lean: everything a host write and a pre-configuration pair can do
(70_reset_and_hazards.md rules R243, R250). -/

namespace Sys2Proof.Machine

/-- What a host write that goes through has done: it set one register, or it replaced memory by one in canonical form. The
program counter and the program are never among what changes. -/
inductive WriteEffect (s : State) : State → Prop where
  | register (i : RegIndex) (v : Word) : WriteEffect s (s.setX i v)
  | memory (m : Memory) (hm : s.mem.wf → m.wf) : WriteEffect s (s.setMem m)

theorem writeRegister_effect {s t : State} {index : Int} {v : Word} (h : writeRegister s index v = .ok t) :
    WriteEffect s t := by
  unfold writeRegister at h
  split at h <;> cases h
  exact .register _ v

theorem writeRegisterByName_effect {s t : State} {name : List Char} {v : Word}
    (h : writeRegisterByName s name v = .ok t) : WriteEffect s t := by
  unfold writeRegisterByName at h
  split at h <;> cases h
  exact .register _ v

theorem writeDoubleWord_effect {s t : State} {addr : Int} {v : Word} (h : writeDoubleWord s addr v = .ok t) :
    WriteEffect s t := by
  unfold writeDoubleWord at h
  split at h <;> cases h
  next hm => exact .memory _ (wf_memWrite hm)

/-- The byte check: a byte address that passes lies in memory. -/
theorem checkByte_ok {addr : Int} {a : Nat} (h : checkByte addr = .ok a) : a < Config.memSize ∧ a = addr.toNat := by
  unfold checkByte at h
  split at h <;> cases h
  exact ⟨by show addr.toNat < 256; omega, rfl⟩

theorem writeByte_effect {s t : State} {addr : Int} {b : Byte} (h : writeByte s addr b = .ok t) : WriteEffect s t := by
  unfold writeByte at h
  split at h <;> cases h
  next ha => exact .memory _ fun hm => Memory.wf_write hm (checkByte_ok ha).1

/-- The inversion lemma of `applyWrite`. -/
theorem applyWrite_effect {s t : State} {w : HostWrite} (h : applyWrite s w = .ok t) : WriteEffect s t := by
  cases w with
  | register index v => exact writeRegister_effect h
  | registerByName name v => exact writeRegisterByName_effect h
  | doubleWord addr v => exact writeDoubleWord_effect h
  | byte addr b => exact writeByte_effect h

/-- The inversion lemma of `applyPair`. -/
theorem applyPair_effect {s t : State} {p : Location × Word} (h : applyPair s p = .ok t) : WriteEffect s t := by
  obtain ⟨loc, v⟩ := p
  cases loc with
  | register index => exact writeRegister_effect h
  | memory addr => exact writeDoubleWord_effect h

/-- No host write changes the program counter. -/
theorem WriteEffect.pc_eq {s t : State} (h : WriteEffect s t) : t.pc = s.pc := by cases h <;> simp

/-- No host write changes the program. -/
theorem WriteEffect.prog_eq {s t : State} (h : WriteEffect s t) : t.prog = s.prog := by cases h <;> simp

/-- A host write keeps the canonical form of memory. -/
theorem WriteEffect.memWf {s t : State} (h : WriteEffect s t) (hs : s.mem.wf) : t.mem.wf := by
  cases h with
  | register i v => simpa using hs
  | memory m hm => exact hm hs

/-- The index check: an index that passes is the register's number. -/
theorem checkIndex_ok {index : Int} {i : RegIndex} (h : checkIndex index = .ok i) : index = i.val := by
  unfold checkIndex at h
  split at h <;> cases h
  show index = (index.toNat : Int)
  omega

@[simp] theorem checkIndex_val (i : RegIndex) : checkIndex i.val = .ok i := by
  rw [checkIndex, dif_pos (by have := i.isLt; omega)]
  simp

/-- Every register and every byte after a pre-configuration pair that goes through, from memory in canonical form. -/
theorem applyPair_reads {s t : State} {loc : Location} {v : Word} (h : applyPair s (loc, v) = .ok t) (hs : s.mem.wf) :
    (∀ r : RegIndex, t.x r = if loc = .register r.val ∧ r ≠ 31 then v else s.x r) ∧
    (∀ c : Nat, t.mem.read c =
      match loc with
      | .register _ => s.mem.read c
      | .memory a => if a ≤ (c : Int) ∧ (c : Int) < a + 8 then Memory.byteOf v (c - a.toNat) else s.mem.read c) := by
  cases loc with
  | register index =>
    simp only [applyPair, writeRegister] at h
    split at h <;> cases h
    next i hi =>
    cases checkIndex_ok hi
    refine ⟨fun r => ?_, fun c => by simp⟩
    rw [State.x_setX]
    have : Location.register i.val = .register r.val ↔ r = i := by
      simp only [Location.register.injEq, Int.ofNat_inj, Fin.ext_iff]
      exact eq_comm
    simp only [this]
  | memory a =>
    simp only [applyPair, writeDoubleWord] at h
    split at h <;> cases h
    next m hm => exact ⟨fun r => by simp, read_memWrite hm hs⟩

/-- Whether a pair goes through depends on its location alone. -/
theorem applyPair_ok_of_ok {s t : State} {loc : Location} {v : Word} (h : applyPair s (loc, v) = .ok t) (s' : State)
    (w : Word) : ∃ t', applyPair s' (loc, w) = .ok t' := by
  cases loc with
  | register index =>
    simp only [applyPair, writeRegister] at h ⊢
    split at h <;> cases h
    next i hi => exact ⟨_, rfl⟩
  | memory a =>
    simp only [applyPair, writeDoubleWord] at h ⊢
    split at h <;> cases h
    next m hm =>
    obtain ⟨ha, h0, h1, -⟩ := memWrite_ok hm
    exact ⟨_, by simp only [memWrite, checkDouble_inside ha h0 h1]; rfl⟩

end Sys2Proof.Machine
end

