-- ==== Sys2Proof/Laws/PerInstr.lean ====
section
/-! SUPPORT. Laws/PerInstr.lean: statements about every instruction as syntax, one lemma per constructor. -/

namespace Sys2Proof.Laws.RowOf

/-- The word of an instruction is a row of its own opcode: `encode i & mask == match` (30_encoding.md rules R100, R106). -/
def Statement (i : Instr) : Prop := i.opcode.isRowOf (encode i) = true

/-- A word whose pattern and fields are put together bit by bit matches its row, if the fields lie outside the mask. -/
theorem isRowOf_of_bits {op : Opcode} {w : InsnWord}
    (h : ∀ j < 32, (w.getLsbD j && op.mask.getLsbD j) = op.pattern.getLsbD j) : op.isRowOf w = true := by
  simp only [Opcode.isRowOf, beq_iff_eq]
  apply BitVec.eq_of_getLsbD_eq
  intro j hj
  rw [BitVec.getLsbD_and, h j hj]

/-- One bit of a placed field. -/
theorem getLsbD_placeField {k : Nat} (v : BitVec k) (lo j : Nat) (hj : j < 32) :
    (placeField v lo).getLsbD j = (decide (lo ≤ j) && v.getLsbD (j - lo)) := by
  simp only [placeField, BitVec.getLsbD_shiftLeft, BitVec.getLsbD_setWidth]
  by_cases h : lo ≤ j
  · simp [hj, h, show j - lo < 32 by omega, show ¬ j < lo by omega]
  · simp [hj, h, show j < lo by omega]

theorem add (d n m : Nat) : Statement (.add d n m) := by
  refine isRowOf_of_bits fun j hj => ?_
  simp only [encode, Instr.opcode, BitVec.getLsbD_or, getLsbD_placeField _ _ _ hj]
  interval_cases j <;> simp [Opcode.mask, Opcode.pattern]

theorem sub (d n m : Nat) : Statement (.sub d n m) := by
  refine isRowOf_of_bits fun j hj => ?_
  simp only [encode, Instr.opcode, BitVec.getLsbD_or, getLsbD_placeField _ _ _ hj]
  interval_cases j <;> simp [Opcode.mask, Opcode.pattern]

theorem addi (d n : Nat) (imm : Int) : Statement (.addi d n imm) := by
  refine isRowOf_of_bits fun j hj => ?_
  simp only [encode, Instr.opcode, BitVec.getLsbD_or, getLsbD_placeField _ _ _ hj]
  interval_cases j <;> simp [Opcode.mask, Opcode.pattern, BitVec.getLsbD_of_ge]

theorem subi (d n : Nat) (imm : Int) : Statement (.subi d n imm) := by
  refine isRowOf_of_bits fun j hj => ?_
  simp only [encode, Instr.opcode, BitVec.getLsbD_or, getLsbD_placeField _ _ _ hj]
  interval_cases j <;> simp [Opcode.mask, Opcode.pattern, BitVec.getLsbD_of_ge]

theorem ldur (t n : Nat) (imm : Int) : Statement (.ldur t n imm) := by
  refine isRowOf_of_bits fun j hj => ?_
  simp only [encode, Instr.opcode, BitVec.getLsbD_or, getLsbD_placeField _ _ _ hj]
  interval_cases j <;> simp [Opcode.mask, Opcode.pattern, BitVec.getLsbD_of_ge]

theorem stur (t n : Nat) (imm : Int) : Statement (.stur t n imm) := by
  refine isRowOf_of_bits fun j hj => ?_
  simp only [encode, Instr.opcode, BitVec.getLsbD_or, getLsbD_placeField _ _ _ hj]
  interval_cases j <;> simp [Opcode.mask, Opcode.pattern, BitVec.getLsbD_of_ge]

theorem b (imm : Int) : Statement (.b imm) := by
  refine isRowOf_of_bits fun j hj => ?_
  simp only [encode, Instr.opcode, BitVec.getLsbD_or, getLsbD_placeField _ _ _ hj]
  interval_cases j <;> simp [Opcode.mask, Opcode.pattern, BitVec.getLsbD_of_ge]

theorem cbz (t : Nat) (imm : Int) : Statement (.cbz t imm) := by
  refine isRowOf_of_bits fun j hj => ?_
  simp only [encode, Instr.opcode, BitVec.getLsbD_or, getLsbD_placeField _ _ _ hj]
  interval_cases j <;> simp [Opcode.mask, Opcode.pattern, BitVec.getLsbD_of_ge]

theorem cbnz (t : Nat) (imm : Int) : Statement (.cbnz t imm) := by
  refine isRowOf_of_bits fun j hj => ?_
  simp only [encode, Instr.opcode, BitVec.getLsbD_or, getLsbD_placeField _ _ _ hj]
  interval_cases j <;> simp [Opcode.mask, Opcode.pattern, BitVec.getLsbD_of_ge]

end Sys2Proof.Laws.RowOf
end

