-- ==== Sys2Proof/Laws/Step.lean ====
section
/-! SUPPORT. Laws/Step.lean: everything an instruction can do to the state, and everything a fetch can find. -/

namespace Sys2Proof.Machine

/-- What an instruction that goes on has done: it wrote the one register of its write set, or stored a double word, or
only moved the program counter. The program is never among what changes. -/
inductive Effect (i : Instr) (s : State) : State → Prop where
  | wrote (d : RegIndex) (v : Word) (hd : writeSet i = [d.val]) : Effect i s (s.setX d v).advance
  | stored (t n : RegIndex) (imm : Int) (m : Memory) (hi : i = .stur t.val n.val imm)
      (hm : memWrite s.mem (effectiveAddress s n imm) (s.x t) = .ok m) : Effect i s (s.setMem m).advance
  | jumped (imm : Int) (hi : writeSet i = []) : Effect i s (s.jump imm)
  | fell (hi : writeSet i = []) : Effect i s s.advance

/-- The inversion lemma of `exec`. -/
theorem exec_effect {i : Instr} {s t : State} (h : exec i s = .next t) : Effect i s t := by
  cases i with
  | add d n m =>
    simp only [exec, execAdd, registerAlu] at h
    obtain ⟨d, rfl, h1⟩ := withReg_next h
    obtain ⟨n, rfl, h2⟩ := withReg_next h1
    obtain ⟨m, rfl, h3⟩ := withReg_next h2
    cases h3; exact .wrote d _ rfl
  | sub d n m =>
    simp only [exec, execSub, registerAlu] at h
    obtain ⟨d, rfl, h1⟩ := withReg_next h
    obtain ⟨n, rfl, h2⟩ := withReg_next h1
    obtain ⟨m, rfl, h3⟩ := withReg_next h2
    cases h3; exact .wrote d _ rfl
  | addi d n imm =>
    simp only [exec, execAddi, immediateAlu] at h
    obtain ⟨d, rfl, h1⟩ := withReg_next h
    obtain ⟨n, rfl, h2⟩ := withReg_next h1
    obtain ⟨-, h3⟩ := withImm_next h2
    cases h3; exact .wrote d _ rfl
  | subi d n imm =>
    simp only [exec, execSubi, immediateAlu] at h
    obtain ⟨d, rfl, h1⟩ := withReg_next h
    obtain ⟨n, rfl, h2⟩ := withReg_next h1
    obtain ⟨-, h3⟩ := withImm_next h2
    cases h3; exact .wrote d _ rfl
  | ldur t n imm =>
    simp only [exec, execLdur] at h
    obtain ⟨t, rfl, h1⟩ := withReg_next h
    obtain ⟨n, rfl, h2⟩ := withReg_next h1
    obtain ⟨-, h3⟩ := withImm_next h2
    split at h3 <;> cases h3
    exact .wrote t _ rfl
  | stur t n imm =>
    simp only [exec, execStur] at h
    obtain ⟨t, rfl, h1⟩ := withReg_next h
    obtain ⟨n, rfl, h2⟩ := withReg_next h1
    obtain ⟨-, h3⟩ := withImm_next h2
    split at h3
    · cases h3
    · next m hm => cases h3; exact .stored t n imm m rfl hm
  | b imm =>
    simp only [exec, execB] at h
    obtain ⟨-, h1⟩ := withImm_next h
    cases h1; exact .jumped imm rfl
  | cbz t imm =>
    simp only [exec, execCbz, condBranch] at h
    obtain ⟨t, rfl, h1⟩ := withReg_next h
    obtain ⟨-, h2⟩ := withImm_next h1
    cases h2
    split
    · exact .jumped imm rfl
    · exact .fell rfl
  | cbnz t imm =>
    simp only [exec, execCbnz, condBranch] at h
    obtain ⟨t, rfl, h1⟩ := withReg_next h
    obtain ⟨-, h2⟩ := withImm_next h1
    cases h2
    split
    · exact .jumped imm rfl
    · exact .fell rfl

/-- No instruction changes the program. -/
theorem exec_prog {i : Instr} {s t : State} (h : exec i s = .next t) : t.prog = s.prog := by
  cases exec_effect h <;> simp

/-- No instruction is refused. -/
theorem exec_not_refused (i : Instr) (s : State) (r : Refusal) : exec i s ≠ .refused r := by
  intro h
  cases i <;>
    simp only [exec, execAdd, execSub, execAddi, execSubi, execLdur, execStur, execB, execCbz, execCbnz, registerAlu,
      immediateAlu, condBranch, withReg, withImm, raise] at h <;>
    repeat' (split at h <;> first | cases h | skip)

/-- Everything a fetch can find, with its condition. -/
theorem fetch_cases (s : State) :
    (s.pc.toNat = s.progEnd ∧ s.fetch = .halted) ∨
    (s.progEnd < s.pc.toNat ∧ s.fetch = .fault (.outOfBounds s.pc)) ∨
    (∃ h : s.pc.toNat / 4 < s.prog.length, s.pc.toNat < s.progEnd ∧
      ((∃ i, decode s.prog[s.pc.toNat / 4] = .ok i ∧ s.fetch = .instr i) ∨
       (∃ e, decode s.prog[s.pc.toNat / 4] = .error e ∧
          s.fetch = .fault (.malformedInstruction (s.pc.toNat / 4) e)))) := by
  have hend : s.progEnd = 4 * s.prog.length := rfl
  by_cases hc : s.pc.toNat = s.progEnd
  · exact .inl ⟨hc, by simp [State.fetch, State.cleanHalt, hc]⟩
  · have hch : s.cleanHalt = false := by simp [State.cleanHalt, hc]
    by_cases hlt : s.pc.toNat < s.progEnd
    · have hidx : s.pc.toNat / 4 < s.prog.length := by omega
      refine .inr (.inr ⟨hidx, hlt, ?_⟩)
      have hget : s.prog[s.pc.toNat / Config.ilen]? = some s.prog[s.pc.toNat / 4] :=
        List.getElem?_eq_getElem hidx
      cases hd : decode s.prog[s.pc.toNat / 4] with
      | ok i => exact .inl ⟨i, rfl, by simp only [State.fetch, hch, hget, hd]; rfl⟩
      | error e => exact .inr ⟨e, rfl, by simp only [State.fetch, hch, hget, hd]; rfl⟩
    · refine .inr (.inl ⟨by omega, ?_⟩)
      have hget : s.prog[s.pc.toNat / Config.ilen]? = none :=
        List.getElem?_eq_none (by show s.prog.length ≤ s.pc.toNat / 4; omega)
      simp only [State.fetch, hch, hget]; rfl

end Sys2Proof.Machine
end

