-- ==== Sys2Proof/Tests/Slice0.lean ====
section
/-! SUPPORT. Tests/Slice0.lean: the model's own tests. Expected values are those of spec/95_test_vectors.md (V, T, P) or of
the rule named. The theorems test_witness_<Name> show, for the obligation of that name, states and operands that meet
its hypotheses, clause by clause, at the ends of their ranges. -/

namespace Sys2Proof.Tests

open Sys2Proof.Machine

/-! ### Helpers -/

/-- `o` is a next state of which `p` holds. -/
def nextIs (o : Host.Outcome State Fault Refusal) (p : State → Bool) : Bool :=
  match o with
  | .next t => p t
  | .fault _ => false
  | .refused _ => false

/-- `o` is the fault `f`. -/
def faultIs (o : Host.Outcome State Fault Refusal) (f : Fault) : Bool :=
  match o with
  | .next _ => false
  | .fault g => g == f
  | .refused _ => false

theorem fault_of {o : Host.Outcome State Fault Refusal} {f : Fault} (h : faultIs o f = true) : o = .fault f := by
  cases o <;> simp_all [faultIs]

theorem next_of {o : Host.Outcome State Fault Refusal} {t : State} (h : nextIs o (· == t) = true) : o = .next t := by
  cases o <;> simp_all [nextIs]

/-- A small state: `pc`, some registers, some bytes from address `a` on, a program. -/
def st (pc : Word) (rs : List (RegIndex × Word)) (a : Nat := 0) (bs : List Byte := []) (prog : List InsnWord := []) :
    State :=
  { rs.foldl (fun s r => s.setX r.1 r.2) State.reset with pc := pc, mem := Memory.ofBytes a bs, prog := prog }

/-- The checks behind `Inv`, computed. -/
def invChecks (s : State) : Bool :=
  decide (s.pc.toNat % 4 = 0) && decide (Memory.wf s.mem) && s.prog.all (fun w => (decode w).isOk) &&
    decide (s.prog.length ≤ Config.maxProgLen)

theorem legal_of {prog : List InsnWord} (h : prog.all (fun w => (decode w).isOk) = true) : LegalProgram prog := by
  intro w hw
  have := List.all_eq_true.mp h w hw
  cases hd : decode w with
  | ok i => exact ⟨i, rfl⟩
  | error e => rw [hd] at this; cases this

theorem inv_of {s : State} (h : invChecks s = true) : Inv s := by
  simp only [invChecks, Bool.and_eq_true, decide_eq_true_eq] at h
  exact ⟨h.1.1.1, h.1.1.2, legal_of h.1.2, h.2⟩

/-- An ADD that does nothing but advance (rule R104). -/
def idle : InsnWord := 0x8B1F03FF

/-! ### WellFormed: one ill-formed term for each check -/

theorem test_wellFormed_refuses_registers :
    [Instr.add 32 0 0, .add 0 32 0, .add 0 0 32, .sub 32 0 0, .addi 32 0 0, .addi 0 32 0, .subi 0 32 0, .ldur 32 0 0,
      .ldur 0 32 0, .stur 32 0 0, .stur 0 32 0, .cbz 32 0, .cbnz 32 0].all (fun i => !i.wellFormed && !i.regsOk) = true := by
  decide

theorem test_wellFormed_refuses_immediates :
    [Instr.addi 0 0 (-1), .addi 0 0 4096, .subi 0 0 (-1), .subi 0 0 4096, .ldur 0 0 (-257), .ldur 0 0 256,
      .stur 0 0 (-257), .stur 0 0 256, .b (-33554433), .b 33554432, .cbz 0 (-262145), .cbz 0 262144, .cbnz 0 (-262145),
      .cbnz 0 262144].all (fun i => !i.wellFormed && !i.immOk) = true := by
  decide

theorem test_wellFormed_accepts_ends_of_ranges :
    [Instr.add 31 31 31, .sub 0 0 0, .addi 31 31 0, .subi 0 0 4095, .ldur 31 31 (-256), .stur 31 0 255, .b (-33554432),
      .b 33554431, .cbz 31 (-262144), .cbnz 0 262143].all (fun i => i.wellFormed) = true := by
  decide

/-! ### Decode and encode: words written out from rules R95 to R100 (V1 to V29) -/

/-- V1 to V20. -/
def vectors : List (InsnWord × Instr) :=
  [(0b10001011000_00011_000000_00010_00001, .add 1 2 3), (0b11001011000_00011_000000_00010_00001, .sub 1 2 3),
   (0b10001011000_11111_000000_11111_00100, .add 4 31 31), (0b1001000100_111111111111_00010_00001, .addi 1 2 4095),
   (0b1001000100_000000000000_00000_00000, .addi 0 0 0), (0b1101000100_000000000001_00010_00010, .subi 2 2 1),
   (0b11111000010_000000000_00_00001_00101, .ldur 5 1 0), (0b11111000010_100000000_00_00010_00001, .ldur 1 2 (-256)),
   (0b11111000000_011111111_00_00010_00001, .stur 1 2 255), (0b11111000000_111111000_00_00000_00011, .stur 3 0 (-8))] ++
  [(0b000101_11111111111111111111111101, .b (-3)), (0b000101_01111111111111111111111111, .b 33554431),
   (0b000101_10000000000000000000000000, .b (-33554432)), (0b000101_00000000000000000000000000, .b 0),
   (0b10110100_1111111111111111100_00000, .cbz 0 (-4)), (0b10110100_0111111111111111111_11111, .cbz 31 262143),
   (0b10110101_1000000000000000000_11110, .cbnz 30 (-262144)), (0b10110101_1111111111111111100_00010, .cbnz 2 (-4)),
   (0b1101000100_111111111111_11111_11111, .subi 31 31 4095), (0b11111000010_100000000_00_11111_11111, .ldur 31 31 (-256))]

theorem test_decode_vectors : vectors.all (fun v => decide (decode v.1 = .ok v.2)) = true := by decide

theorem test_encode_vectors : vectors.all (fun v => decide (encode v.2 = v.1)) = true := by decide

/-- The hexadecimal column of the same table. -/
theorem test_vectors_in_hex : vectors.map (·.1) =
    [0x8B030041, 0xCB030041, 0x8B1F03E4, 0x913FFC41, 0x91000000, 0xD1000442, 0xF8400025, 0xF8500041, 0xF80FF041, 0xF81F8003,
     0x17FFFFFD, 0x15FFFFFF, 0x16000000, 0x14000000, 0xB4FFFF80, 0xB47FFFFF, 0xB580001E, 0xB5FFFF82, 0xD13FFFFF,
     0xF85003FF] := by
  decide

/-- V21 to V29. -/
theorem test_illegal_words :
    [0x00000000, 0xFFFFFFFF, 0x8B000400, 0xCB008000, 0xF8400400, 0xF8000C00, 0x91400000, 0x8B200000, 0x94000000, 0xD65F03C0,
      0xAA0003E0, 0xD503201F, 0x34000000, 0xB6000000, 0x18000000].all
      (fun w : InsnWord => decide (decode w = .error (.word w))) = true := by
  decide

/-- The fixed names of the interface, on rows of the table. -/
theorem test_decodeTableWord : decodeTableWord 32 0x8B030041 = some (.add 1 2 3) ∧ decodeTableWord 32 0 = none := by decide

theorem test_withFetchWord_runs_the_word :
    nextIs (step (State.reset.withFetchWord 32 0x913FFFE1)) (fun t => t.x 1 == 0xFFF && t.pc == 4) = true ∧
    (State.reset.withFetchWord 32 0x14000000).fetch = .instr (.b 0) ∧
    ({ st 8 [] with prog := [idle] }.withFetchWord 32 0x14000001).fetch = .instr (.b 1) := by
  decide

/-! ### Assembly text (T1 to T18) -/

theorem test_asm_accepts :
    Asm.asmDecode "ADD X1, X2, X3".toList = .ok (.add 1 2 3) ∧ Asm.asmDecode "add x1,x2,x3".toList = .ok (.add 1 2 3) ∧
    Asm.asmDecode "ADD X1 X2 X3".toList = .ok (.add 1 2 3) ∧ Asm.asmDecode "SUB X0, XZR, X31".toList = .ok (.sub 0 31 31) ∧
    Asm.asmDecode "ADDI X1, X2, #4095".toList = .ok (.addi 1 2 4095) ∧
    Asm.asmDecode "LDUR X5, [X1, #0]".toList = .ok (.ldur 5 1 0) ∧
    Asm.parse "LDUR X5, [X1, #0]".toList = .ok (.ldur, ["X5".toList, "X1".toList, "#0".toList]) ∧
    Asm.asmDecode "STUR X1, [X2, #-256]".toList = .ok (.stur 1 2 (-256)) ∧
    Asm.asmDecode "CBZ X0, #262143".toList = .ok (.cbz 0 262143) ∧
    Asm.asmDecode "B #33554431".toList = .ok (.b 33554431) ∧ Asm.asmDecode "B #-33554432".toList = .ok (.b (-33554432)) := by
  decide

theorem test_asm_refuses :
    ["ADDI X1,X2,#4096", "ADDI X1, X2, #-1", "STUR X1, [X2, #-257]", "STUR X1, [X2, #256]", "CBZ X0, #262144",
      "CBNZ X0, #-262145", "B #33554432", "B #-33554433", "MOV X1, X2", "ADD X1, X2", "ADD X1, X2, X3, X4",
      "ADD X1, X2, #3"].all (fun l => decide (Asm.validate l.toList = .error (.line l.toList))) = true := by
  decide

theorem test_asm_refuses_tokens :
    ["ADDI X1, X2, X3", "ADD X32, X0, X0", "ADD W1, X0, X0", "ADD SP, X0, X0", "B 5", "B loop", "LDUR X5, X1, #0",
      "ADD X07, X0, X0", "ADDI X1, X2, #+5", "ADDI X1, X2, #007", "ADDI X1, X2, #-0", ""].all
      (fun l => decide (Asm.validate l.toList = .error (.line l.toList))) = true := by
  decide

/-- Rule R126. -/
theorem test_asm_print : Asm.print (.ldur 5 1 0) = "LDUR X5, [X1, #0]".toList ∧ Asm.print (.b (-3)) = "B #-3".toList ∧
    Asm.print (.sub 0 31 30) = "SUB X0, XZR, X30".toList := by
  decide

/-! ### The nine instructions (section 2.4 to 2.8 of the vectors) -/

/-- V32, V33. -/
theorem test_add : nextIs (exec (.add 1 2 3) (st 0x100 [(2, 0x7FFFFFFFFFFFFFFF), (3, 1)]))
      (fun t => t.x 1 == 0x8000000000000000 && t.pc == 0x104) = true ∧
    nextIs (exec (.add 1 1 1) (st 0x100 [(1, 0x8000000000000001)])) (fun t => t.x 1 == 2) = true := by
  decide

/-- V34, V35. -/
theorem test_add_zero_register :
    nextIs (exec (.add 31 2 3) (st 0x100 [(2, 5), (3, 7)])) (· == st 0x104 [(2, 5), (3, 7)]) = true ∧
    nextIs (exec (.add 4 31 31) (st 0 [(4, 0xDEAD)])) (fun t => t.x 4 == 0) = true := by
  decide

/-- V36a, V37. -/
theorem test_sub : nextIs (exec (.sub 1 2 3) (st 0 [(2, 5), (3, 7)])) (fun t => t.x 1 == 0xFFFFFFFFFFFFFFFE) = true ∧
    nextIs (exec (.sub 1 2 3) (st 0 [(2, 0), (3, 1)])) (fun t => t.x 1 == 0xFFFFFFFFFFFFFFFF && t.pc == 4) = true := by
  decide

/-- V39, V40. -/
theorem test_sub_negates : nextIs (exec (.sub 5 31 1) (st 0 [(1, 0xFFFFFFFFFFFFFFFF)])) (fun t => t.x 5 == 1) = true ∧
    nextIs (exec (.sub 5 31 1) (st 0 [(1, 0x8000000000000000)])) (fun t => t.x 5 == 0x8000000000000000) = true := by
  decide

/-- V43, V46. -/
theorem test_addi : nextIs (exec (.addi 1 31 4095) (st 0 [(1, 7)])) (fun t => t.x 1 == 0xFFF && t.pc == 4) = true ∧
    nextIs (exec (.addi 1 2 4095) (st 0 [(2, 0xFFFFFFFFFFFFF001)])) (fun t => t.x 1 == 0) = true := by
  decide

/-- V53; with a bad register the register is reported first (rule R210). -/
theorem test_addi_revalidates : faultIs (exec (.addi 1 2 4096) (st 0 [])) (.invalidImmediate 4096) = true ∧
    faultIs (exec (.addi 1 32 4096) (st 0 [])) (.invalidRegister "X32".toList) = true := by
  decide

/-- V49, V51. -/
theorem test_subi : nextIs (exec (.subi 2 2 1) (st 0 [(2, 0)])) (fun t => t.x 2 == 0xFFFFFFFFFFFFFFFF) = true ∧
    nextIs (exec (.subi 1 2 4095) (st 0 [(2, 0)])) (fun t => t.x 1 == 0xFFFFFFFFFFFFF001) = true := by
  decide

/-- V30, V56, V59g. -/
theorem test_ldur :
    nextIs (exec (.ldur 1 0 0) (st 0 [(0, 16)] 16 [1, 2, 3, 4, 5, 6, 7, 8])) (fun t => t.x 1 == 0x0102030405060708) = true ∧
    nextIs (exec (.ldur 2 1 16) (st 0 [(1, 0xFFFFFFFFFFFFFFF8)] 15 [0xAB])) (fun t => t.x 2 == 0xAB) = true ∧
    nextIs (exec (.ldur 1 1 0) (st 0 [(1, 16)] 23 [24])) (fun t => t.x 1 == 24) = true := by
  decide

/-- V57, V59, V59a, V59c, V59e, V59j. -/
theorem test_ldur_faults :
    faultIs (exec (.ldur 2 1 0) (st 0 [(1, 4)])) (.alignmentError 4) = true ∧
    faultIs (exec (.ldur 2 1 0) (st 0 [(1, 0xFFFFFFFFFFFFFFF8)])) (.boundsError (-8)) = true ∧
    faultIs (exec (.ldur 2 1 0) (st 0 [(1, 253)])) (.alignmentError 253) = true ∧
    faultIs (exec (.ldur 2 1 255) (st 0 [(1, 1)])) (.boundsError 256) = true ∧
    faultIs (exec (.ldur 31 1 0) (st 0 [(1, 4)])) (.alignmentError 4) = true ∧
    faultIs (exec (.ldur 2 1 255) (st 0 [(1, 0x7FFFFFFFFFFFFFFF)])) (.alignmentError (2 ^ 63 + 254)) = true := by
  decide

/-- V36, V55, V59h. -/
theorem test_stur :
    nextIs (exec (.stur 4 31 248) (st 0 [(4, 0x102)])) (fun t => t.mem == [(254, 1), (255, 2)] && t.pc == 4) = true ∧
    nextIs (exec (.stur 3 0 (-8)) (st 0 [(0, 16), (3, 0xFFFFFFFFFFFFFFFF)]))
      (fun t => t.mem == Memory.ofBytes 8 (List.replicate 8 0xFF)) = true ∧
    nextIs (exec (.stur 31 1 0) (st 0 [(1, 32)] 31 (List.replicate 10 7))) (fun t => t.mem == [(31, 7), (40, 7)]) = true := by
  decide

/-- V58, V59i. -/
theorem test_stur_faults : faultIs (exec (.stur 1 1 0) (st 0 [(1, 256)])) (.boundsError 256) = true ∧
    faultIs (exec (.stur 1 1 0) (st 0 [(1, 0x7FFFFFFFFFFFFFF8)])) (.boundsError 9223372036854775800) = true := by
  decide

/-- V60, V63, V64. -/
theorem test_b : nextIs (exec (.b (-3)) (st 12 [])) (fun t => t.pc == 0) = true ∧
    nextIs (exec (.b (-1)) (st 0 [])) (fun t => t.pc == 0xFFFFFFFFFFFFFFFC) = true ∧
    nextIs (exec (.b 0) (st 8 [])) (· == st 8 []) = true := by
  decide

/-- V68 to V72. -/
theorem test_cbz : nextIs (exec (.cbz 0 (-4)) (st 20 [])) (fun t => t.pc == 4) = true ∧
    nextIs (exec (.cbz 0 (-4)) (st 20 [(0, 1)])) (fun t => t.pc == 24) = true ∧
    nextIs (exec (.cbz 0 (-4)) (st 20 [(0, 0x8000000000000000)])) (fun t => t.pc == 24) = true ∧
    nextIs (exec (.cbz 0 (-4)) (st 20 [(0, 0x0000000100000000)])) (fun t => t.pc == 24) = true ∧
    nextIs (exec (.cbz 31 2) (st 20 [])) (fun t => t.pc == 28) = true := by
  decide

/-- V73 to V76. -/
theorem test_cbnz : nextIs (exec (.cbnz 2 (-4)) (st 20 [(2, 4)])) (fun t => t.pc == 4) = true ∧
    nextIs (exec (.cbnz 2 (-4)) (st 20 [(2, 0)])) (fun t => t.pc == 24) = true ∧
    nextIs (exec (.cbnz 2 (-4)) (st 20 [(2, 0xFFFFFFFFFFFFFFFF)])) (fun t => t.pc == 4) = true ∧
    nextIs (exec (.cbnz 31 (-5)) (st 20 [])) (fun t => t.pc == 24) = true := by
  decide

/-! ### Halting, construction and the host -/

/-- V61, V62, V67. -/
theorem test_halt_and_overrun :
    stepCall (st 32 [] 0 [] (List.replicate 8 idle)) = .halted (st 32 [] 0 [] (List.replicate 8 idle)) ∧
    stepCall (st 36 [] 0 [] (List.replicate 8 idle)) = .faulted (.outOfBounds 36) (st 36 [] 0 [] (List.replicate 8 idle)) ∧
    stepCall State.reset = .halted State.reset := by
  decide

/-- P8: words and lines, the second entry bad. -/
theorem test_rejected_programs :
    construct [0x8B1F03E4, 0xAA0203E1, 0x91002021] ⟨none, []⟩ = .error (.malformedInstruction 1 (.word 0xAA0203E1)) ∧
    constructText ["ADD X4, XZR, XZR".toList, "MOV X1, X2".toList] ⟨none, []⟩ =
      .error (.malformedInstruction 1 (.line "MOV X1, X2".toList)) ∧
    validateProgram ["LDUR X1, [X2, #4]".toList] = .ok () := by
  decide

/-- Rule R243: pairs in order, `X31` without effect, a later pair wins. -/
theorem test_preconfigure : construct [idle] ⟨none, [(.register 1, 5), (.register 31, 9), (.memory 8, 3), (.register 1, 6)]⟩ =
    .ok (st 0 [(1, 6)] 15 [3] [idle]) := by
  decide

/-- The host accessors at the end of section 2.6. -/
theorem test_host_accessors :
    (writeDoubleWord (st 0 []) 0 0x1122334455667788).map (fun s => (readByte s 0, readByte s 7)) =
      .ok (.ok 0x11, .ok 0x88) ∧
    writeDoubleWord (st 0 []) 12 1 = .error (.alignmentError 12) ∧
    writeDoubleWord (st 0 []) 256 1 = .error (.boundsError 256) ∧
    writeDoubleWord (st 0 []) 249 1 = .error (.alignmentError 249) ∧
    writeByte (st 0 []) 255 1 = .ok (st 0 [] 255 [1]) ∧ writeByte (st 0 []) 256 1 = .error (.boundsError 256) ∧
    readByte (st 0 []) (-1) = .error (.boundsError (-1)) := by
  decide

/-- Rules R25, R26. -/
theorem test_register_names :
    (["X0", "x31", "XZR", "xzr"].map fun n => resolveName n.toList) = [.ok 0, .ok 31, .ok 31, .ok 31] ∧
    ["X32", "X-1", "W3", "SP", "LR", "ZR", "X", ""].all
      (fun n => decide (resolveName n.toList = .error (.invalidRegister n.toList))) = true := by
  decide

/-- Rules R43, R214, R251: equality ignores the program counter and the program, and a new launch has no recorded
fault. -/
theorem test_equality_and_relaunch : equalInstances (st 0 [(1, 5)]) (st 8 [(1, 5)] 0 [] [idle]) = true ∧
    (Session.start (st 36 [])).step.fault = some (.outOfBounds 36) ∧
    (Session.start (st 36 [])).step.relaunch.fault = none ∧ Fault.code (.outOfBounds 36) = 6 := by
  refine ⟨?_, by decide⟩
  simp only [equalInstances, show registerSnapshot (st 8 [(1, 5)] 0 [] [idle]) = registerSnapshot (st 0 [(1, 5)]) from rfl,
    show memorySnapshot (st 8 [(1, 5)] 0 [] [idle]) = memorySnapshot (st 0 [(1, 5)]) from rfl, beq_self_eq_true, Bool.and_self]

/-! ### Witnesses: registers and instructions -/

theorem test_witness_ZeroRegisterWiredOthersHold : (0 : RegIndex) ≠ 31 ∧ (30 : RegIndex) ≠ 31 ∧
    ((st 0 []).setX 0 7).x 0 = 7 ∧ ((st 0 []).setX 30 7).x 30 = 7 ∧ (st 0 []).setX 31 7 = st 0 [] := by
  decide

/-- Two states that agree on what ADD, LDUR read and differ elsewhere; a next state and a fault. -/
theorem test_witness_RegisterReadsAndWritesFollowTable :
    (∀ r : RegIndex, r.val ∈ readSet (.add 1 2 3) → (st 0 [(2, 5), (9, 1)]).x r = (st 0 [(2, 5), (9, 2)]).x r) ∧
    nextIs (exec (.add 1 2 3) (st 0 [(2, 5), (9, 1)])) (fun t => t.x 1 == 5 && t.x 9 == 1) = true ∧
    (∀ r : RegIndex, r.val ∈ readSet (.ldur 1 2 0) → (st 0 [(2, 5), (9, 1)]).x r = (st 0 [(2, 5), (9, 2)]).x r) ∧
    faultIs (exec (.ldur 1 2 0) (st 0 [(2, 5), (9, 2)])) (.alignmentError 5) = true ∧
    1 ∈ writeSet (.add 1 2 3) ∧ 9 ∉ writeSet (.add 1 2 3) := by
  decide

theorem test_witness_AddWritesSumModulo : (0x8B030041 : InsnWord) &&& 0xFFE0FC00 = 0x8B000000 ∧
    (0x8B1F03FF : InsnWord) &&& 0xFFE0FC00 = 0x8B000000 := by
  decide

theorem test_witness_SubWritesDifferenceModulo : (0xCB030041 : InsnWord) &&& 0xFFE0FC00 = 0xCB000000 ∧
    (0xCB1F03FF : InsnWord) &&& 0xFFE0FC00 = 0xCB000000 := by
  decide

theorem test_witness_AddiAddsZeroExtended : (0x913FFC41 : InsnWord) &&& 0xFFC00000 = 0x91000000 ∧
    nextIs (exec (.addi 1 2 0) (st 0 [(2, 9)])) (fun t => t.x 1 == 9) = true ∧
    nextIs (exec (.addi 1 2 4095) (st 0 [(2, 1)])) (fun t => t.x 1 == 4096) = true ∧
    faultIs (exec (.addi 1 2 (-1)) (st 0 [])) (.invalidImmediate (-1)) = true ∧
    faultIs (exec (.addi 1 2 4096) (st 0 [])) (.invalidImmediate 4096) = true := by
  decide

theorem test_witness_SubiSubtractsZeroExtended : (0xD13FFC41 : InsnWord) &&& 0xFFC00000 = 0xD1000000 ∧
    nextIs (exec (.subi 1 2 0) (st 0 [(2, 9)])) (fun t => t.x 1 == 9) = true ∧
    nextIs (exec (.subi 1 2 4095) (st 0 [(2, 4096)])) (fun t => t.x 1 == 1) = true ∧
    faultIs (exec (.subi 1 2 (-1)) (st 0 [])) (.invalidImmediate (-1)) = true ∧
    faultIs (exec (.subi 1 2 4096) (st 0 [])) (.invalidImmediate 4096) = true := by
  decide

/-- Both ends of the immediate; misaligned, below, above; the first and the last double word; a word. -/
theorem test_witness_LdurLoadsCheckedDoubleWord : (0xF8500041 : InsnWord) &&& 0xFFE00C00 = 0xF8400000 ∧
    faultIs (exec (.ldur 1 2 (-257)) (st 0 [])) (.invalidImmediate (-257)) = true ∧
    faultIs (exec (.ldur 1 2 256) (st 0 [])) (.invalidImmediate 256) = true ∧
    faultIs (exec (.ldur 1 2 255) (st 0 [])) (.alignmentError 255) = true ∧
    faultIs (exec (.ldur 1 2 (-256)) (st 0 [(2, 248)])) (.boundsError (-8)) = true ∧
    faultIs (exec (.ldur 1 2 8) (st 0 [(2, 248)])) (.boundsError 256) = true ∧
    nextIs (exec (.ldur 1 2 (-256)) (st 0 [(2, 256)] 7 [6])) (fun t => t.x 1 == 6) = true ∧
    nextIs (exec (.ldur 1 2 248) (st 0 [] 255 [6])) (fun t => t.x 1 == 6) = true := by
  decide

theorem test_witness_SturStoresCheckedDoubleWord : (0xF81F8003 : InsnWord) &&& 0xFFE00C00 = 0xF8000000 ∧
    faultIs (exec (.stur 1 2 (-257)) (st 0 [])) (.invalidImmediate (-257)) = true ∧
    faultIs (exec (.stur 1 2 256) (st 0 [])) (.invalidImmediate 256) = true ∧
    faultIs (exec (.stur 1 2 255) (st 0 [])) (.alignmentError 255) = true ∧
    faultIs (exec (.stur 1 2 (-256)) (st 0 [(2, 248)])) (.boundsError (-8)) = true ∧
    faultIs (exec (.stur 1 2 8) (st 0 [(2, 248)])) (.boundsError 256) = true ∧
    Memory.wf (st 0 [(1, 6), (2, 256)] 7 [9]).mem ∧
    nextIs (exec (.stur 1 2 (-256)) (st 0 [(1, 6), (2, 256)] 7 [9])) (fun t => t.mem == [(7, 6)]) = true ∧
    nextIs (exec (.stur 1 2 248) (st 0 [(1, 6)] 7 [9])) (fun t => t.mem == [(7, 9), (255, 6)]) = true := by
  decide

/-- Both ends of the range, one beyond each end; a target at the end of the program and one beyond it. -/
theorem test_witness_BranchAddsFourTimesOffset : (0x16000000 : InsnWord) &&& 0xFC000000 = 0x14000000 ∧
    nextIs (exec (.b (-33554432)) (st 0 [])) (fun t => t.pc == 0xFFFFFFFFF8000000) = true ∧
    nextIs (exec (.b 33554431) (st 0 [])) (fun t => t.pc == 0x7FFFFFC && faultIs (step t) (.outOfBounds 0x7FFFFFC)) = true ∧
    nextIs (exec (.b 1) (st 0 [] 0 [] [0x14000001])) (fun t => t.cleanHalt && stepCall t == .halted t) = true ∧
    faultIs (exec (.b (-33554433)) (st 0 [])) (.invalidImmediate (-33554433)) = true ∧
    faultIs (exec (.b 33554432) (st 0 [])) (.invalidImmediate 33554432) = true := by
  decide

theorem test_witness_CbzTakenExactlyOnZero : (0xB4FFFF80 : InsnWord) &&& 0xFF000000 = 0xB4000000 ∧
    nextIs (exec (.cbz 0 (-262144)) (st 0x100000 [])) (fun t => t.pc == 0) = true ∧
    nextIs (exec (.cbz 31 262143) (st 0 [])) (fun t => t.pc == 0xFFFFC && faultIs (step t) (.outOfBounds 0xFFFFC)) = true ∧
    nextIs (exec (.cbz 0 1) (st 0 [(0, 7)] 0 [] [idle])) (fun t => t.cleanHalt && stepCall t == .halted t) = true ∧
    faultIs (exec (.cbz 0 (-262145)) (st 0 [])) (.invalidImmediate (-262145)) = true ∧
    faultIs (exec (.cbz 0 262144) (st 0 [(0, 1)])) (.invalidImmediate 262144) = true := by
  decide

theorem test_witness_CbnzTakenExactlyOnNonzero : (0xB580001E : InsnWord) &&& 0xFF000000 = 0xB5000000 ∧
    nextIs (exec (.cbnz 0 (-262144)) (st 0x100000 [(0, 1)])) (fun t => t.pc == 0) = true ∧
    nextIs (exec (.cbnz 31 262143) (st 0 [])) (fun t => t.pc == 4 && faultIs (step t) (.outOfBounds 4)) = true ∧
    nextIs (exec (.cbnz 0 1) (st 0 [(0, 7)] 0 [] [idle])) (fun t => t.cleanHalt && stepCall t == .halted t) = true ∧
    faultIs (exec (.cbnz 0 (-262145)) (st 0 [(0, 1)])) (.invalidImmediate (-262145)) = true ∧
    faultIs (exec (.cbnz 0 262144) (st 0 [])) (.invalidImmediate 262144) = true := by
  decide

/-! ### Witnesses: rules over all instructions -/

/-- Each class just outside its range, with registers that resolve; a word that decodes. -/
theorem test_witness_ImmediateRevalidatedPerClass :
    [Instr.addi 0 0 (-1), .subi 0 0 4096, .ldur 0 0 (-257), .stur 0 0 256, .b (-33554433), .b 33554432, .cbz 0 (-262145),
      .cbnz 0 262144].all
      (fun i => i.regsOk && i.imm?.any fun k => faultIs (exec i (st 0 [])) (.invalidImmediate k)) = true ∧
    (Instr.add 1 2 3).regsOk = true ∧ (Instr.addi 1 2 4095).regsOk = true ∧ decode 0x913FFC41 = .ok (.addi 1 2 4095) := by
  decide

/-- One instruction for each of the four faults. -/
theorem test_witness_InstructionFaultsInOneOrder :
    exec (.stur 1 32 999) (st 0 []) = .fault (.invalidRegister "X32".toList) ∧
    exec (.stur 1 2 256) (st 0 [(2, 1)]) = .fault (.invalidImmediate 256) ∧
    exec (.stur 1 2 0) (st 0 [(2, 257)]) = .fault (.alignmentError 257) ∧
    exec (.stur 1 2 0) (st 0 [(2, 256)]) = .fault (.boundsError 256) :=
  ⟨fault_of (by decide), fault_of (by decide), fault_of (by decide), fault_of (by decide)⟩

theorem test_witness_UnresolvableRegisterStops : (Instr.add 0 0 32).regsOk = false ∧ (Instr.cbz 99 0).regsOk = false ∧
    faultIs (exec (.cbz 99 0) (st 0 [])) (.invalidRegister "X99".toList) = true := by
  decide

/-- Every shape of instruction goes on, each branch both ways; a call that faults. -/
theorem test_witness_ProgramCounterFollowsTable :
    [Instr.add 1 2 3, .sub 1 2 3, .addi 1 2 3, .subi 1 2 3, .ldur 1 2 8, .stur 1 2 8, .cbz 1 5, .cbnz 2 5].all
      (fun i => nextIs (exec i (st 4 [(1, 1)])) (fun t => t.pc == 8)) = true ∧
    [Instr.b 5, .cbz 2 5, .cbnz 1 5].all (fun i => nextIs (exec i (st 4 [(1, 1)])) (fun t => t.pc == 24)) = true ∧
    stepCall (st 4 []) = .faulted (.outOfBounds 4) (st 4 []) := by
  decide

/-- Both ends of the immediate, with the extreme registers and with sums at both ends of memory. -/
theorem test_witness_AddressReadingsAgree :
    effectiveAddress (st 0 [(1, 0x8000000000000000)]) 1 (-256) = -2 ^ 63 - 256 ∧
    wrappedAddress (st 0 [(1, 0x8000000000000000)]) 1 (-256) = 0x7FFFFFFFFFFFFF00 ∧
    effectiveAddress (st 0 [(1, 0x7FFFFFFFFFFFFFFF)]) 1 255 = 2 ^ 63 + 254 ∧
    wrappedAddress (st 0 [(1, 0x7FFFFFFFFFFFFFFF)]) 1 255 = 0x80000000000000FE ∧
    effectiveAddress (st 0 [(1, 256)]) 1 (-256) = 0 ∧ effectiveAddress (st 0 [(1, 0xFFFFFFFFFFFFFFF9)]) 1 255 = 248 ∧
    wrappedAddress (st 0 [(1, 0xFFFFFFFFFFFFFFF9)]) 1 255 = 248 := by
  decide

/-! ### Witnesses: data memory -/

theorem test_witness_MemReadChecksThenReads : memRead [(7, 9)] 1 = .error (.alignmentError 1) ∧
    memRead [(7, 9)] (-1) = .error (.alignmentError (-1)) ∧ memRead [(7, 9)] (-8) = .error (.boundsError (-8)) ∧
    memRead [(7, 9)] 256 = .error (.boundsError 256) ∧ memRead [(7, 9)] 0 = .ok 9 ∧
    memRead [(248, 9)] 248 = .ok 0x0900000000000000 := by
  decide

theorem test_witness_MemWriteChecksThenWrites : Memory.wf [(7, 9)] ∧ memWrite [(7, 9)] 255 1 = .error (.alignmentError 255) ∧
    memWrite [(7, 9)] (-8) 1 = .error (.boundsError (-8)) ∧ memWrite [(7, 9)] 256 1 = .error (.boundsError 256) ∧
    memWrite [(7, 9)] 0 1 = .ok [(7, 1)] ∧ memWrite [(7, 9)] 248 1 = .ok [(7, 9), (255, 1)] := by
  decide

theorem test_witness_MisalignedAccessAlwaysFails : (1 : Int) % 8 ≠ 0 ∧ (-1 : Int) % 8 ≠ 0 ∧ (260 : Int) % 8 ≠ 0 ∧
    writeDoubleWord (st 0 []) 260 1 = .error (.alignmentError 260) := by
  decide

theorem test_witness_AlignedAccessOutsideFails : (-8 : Int) % 8 = 0 ∧ (∀ k ≤ 31, (-8 : Int) ≠ 8 * (k : Nat)) ∧
    (256 : Int) % 8 = 0 ∧ (∀ k ≤ 31, (256 : Int) ≠ 8 * (k : Nat)) := by
  decide

/-- The first and the last double word; the value that is there written over itself. -/
theorem test_witness_MemoryIsPlainStorage : Memory.wf (st 0 [] 7 [9]).mem ∧
    writeDoubleWord (st 0 [] 7 [9]) 0 1 = .ok (st 0 [] 7 [1]) ∧ readDoubleWord (st 0 [] 7 [1]) 0 = .ok 1 ∧
    writeDoubleWord (st 0 []) 248 1 = .ok (st 0 [] 255 [1]) ∧ readDoubleWord (st 0 [] 255 [1]) 248 = .ok 1 ∧
    readDoubleWord (st 0 [] 7 [9]) 0 = .ok 9 ∧ writeDoubleWord (st 0 [] 7 [9]) 0 9 = .ok (st 0 [] 7 [9]) := by
  decide

theorem test_witness_ByteAccessorsCheckBoundsOnly : Memory.wf (st 0 [] 3 [9]).mem ∧
    writeByte (st 0 [] 3 [9]) (-1) 1 = .error (.boundsError (-1)) ∧ readByte (st 0 [] 3 [9]) 256 = .error (.boundsError 256) ∧
    readByte (st 0 [] 3 [9]) 3 = .ok 9 ∧ writeByte (st 0 [] 3 [9]) 0 1 = .ok (st 0 [] 0 [1, 0, 0, 9]) ∧
    writeByte (st 0 [] 255 [9]) 255 1 = .ok (st 0 [] 255 [1]) := by
  decide

theorem test_witness_HostSeesBigEndianBytes : Memory.wf (st 0 []).mem ∧
    writeDoubleWord (st 0 []) 248 0x0102 = .ok (st 0 [] 254 [1, 2]) ∧ readByte (st 0 [] 254 [1, 2]) (248 + 6) = .ok 1 ∧
    readByte (st 0 [] 254 [1, 2]) (248 + 0) = .ok 0 := by
  decide

theorem test_witness_LoadSeesPrecedingStore : Memory.wf (st 0 [(1, 6)] 7 [9]).mem ∧
    effectiveAddress (st 0 [(1, 6)] 7 [9]) 31 248 = 248 ∧
    nextIs (exec (.stur 1 31 248) (st 0 [(1, 6)] 7 [9]))
      (fun t => nextIs (exec (.ldur 2 31 248) t) (fun u => u.x 2 == 6)) = true ∧
    effectiveAddress (st 0 [(2, 256)]) 2 (-256) = 0 := by
  decide

/-- A step of an ADD and a step of a load. -/
theorem test_witness_OnlyStoresWriteMemory :
    (st 0 [] 7 [9] [idle]).fetch = .instr (.add 31 31 31) ∧ nextIs (step (st 0 [] 7 [9] [idle])) (fun t => t.mem == [(7, 9)]) = true ∧
    (st 0 [] 7 [9] [0xF8400025]).fetch = .instr (.ldur 5 1 0) ∧
    nextIs (step (st 0 [] 7 [9] [0xF8400025])) (fun t => t.x 5 == 9 && t.mem == [(7, 9)]) = true := by
  decide

/-- A store that steps; two states with the same program counter and program. -/
theorem test_witness_StoresNeverReachTheProgram :
    nextIs (step (st 0 [(3, 7)] 0 [] [0xF80003E3])) (fun t => t.prog == [0xF80003E3] && t.mem == [(7, 7)]) = true ∧
    (st 0 [(3, 7)] 0 [] [idle]).pc = (st 0 [] 7 [9] [idle]).pc ∧
    (st 0 [(3, 7)] 0 [] [idle]).prog = (st 0 [] 7 [9] [idle]).prog := by
  decide

/-! ### Witnesses: engine, step and run -/

theorem test_witness_EngineStateComparesPcWithEnd : (st 0 []).pc = 0 ∧ (st 0 []).running = false ∧
    (st 0 [] 0 [] [idle]).running = true ∧ (st 4 [] 0 [] [idle]).pc.toNat = 4 * 1 ∧
    nextIs (step (st 4 [] 0 [] [idle])) (· == st 4 [] 0 [] [idle]) = true := by
  decide

/-- At the end, beyond it, at the first and at the last entry, and a step that faults. -/
theorem test_witness_StepExecutesFetchedInstruction :
    (st 32 [] 0 [] (List.replicate 8 idle)).pc.toNat = 4 * 8 ∧ 4 * 8 < (st 36 [] 0 [] (List.replicate 8 idle)).pc.toNat ∧
    (st 0 [] 0 [] (List.replicate 8 idle)).pc.toNat = 4 * 0 ∧ (st 28 [] 0 [] (List.replicate 8 idle)).pc.toNat = 4 * 7 ∧
    decode idle = .ok (.add 31 31 31) ∧
    nextIs (step (st 28 [] 0 [] (List.replicate 8 idle))) (fun t => t.pc == 32) = true ∧
    faultIs (step (st 36 [] 0 [] (List.replicate 8 idle))) (.outOfBounds 36) = true := by
  decide

theorem test_witness_UndecodableEntryStops : (st 4 [] 0 [] [idle, 0]).pc.toNat = 4 * 1 ∧ decode 0 = .error (.word 0) ∧
    faultIs (step (st 4 [] 0 [] [idle, 0])) (.malformedInstruction 1 (.word 0)) = true := by
  decide

theorem test_witness_FaultLeavesStateAndRepeats : step (st 0 [(1, 4)] 0 [] [0xF8400022]) = .fault (.alignmentError 4) ∧
    step (st 8 []) = .fault (.outOfBounds 8) :=
  ⟨fault_of (by decide), fault_of (by decide)⟩

/-- A faulted session that the host steps and writes to in every way, one of the writes failing. -/
theorem test_witness_RecordedFaultIsFinal : (Session.start (st 4 [])).step.fault = some (.outOfBounds 4) ∧
    ([.step, .write (.register 1 5), .write (.registerByName "x2".toList 6), .write (.doubleWord 0 1),
      .write (.byte 255 9), .write (.byte 256 9), .step].foldl Session.move (Session.start (st 4 [])).step) =
      ⟨{ st 4 [(1, 5), (2, 6)] with mem := [(7, 1), (255, 9)] }, some (.outOfBounds 4)⟩ := by
  decide

/-- `B` at offset 12 of eight entries: to the first and last entry, to the end, below 0, beyond the end. -/
theorem test_witness_BranchTargetDecidesWhatFollows :
    Inv (st 12 [] 0 [] (List.replicate 8 0x17FFFFFD)) ∧ Inv (st 12 [] 0 [] (List.replicate 8 0x14000004)) ∧
    Inv (st 12 [] 0 [] (List.replicate 8 0x14000005)) ∧ Inv (st 12 [] 0 [] (List.replicate 8 0x17FFFFFC)) ∧
    Inv (st 12 [] 0 [] (List.replicate 8 0x14000006)) ∧
    ([0x17FFFFFD, 0x14000004, 0x14000005, 0x17FFFFFC, 0x14000006].map fun w => (st 12 [] 0 [] (List.replicate 8 w)).fetch) =
      [.instr (.b (-3)), .instr (.b 4), .instr (.b 5), .instr (.b (-4)), .instr (.b 6)] :=
  ⟨inv_of (by decide), inv_of (by decide), inv_of (by decide), inv_of (by decide), inv_of (by decide), by decide⟩

theorem test_witness_SelfBranchNeverEnds : (st 0 [(1, 5)] 0 [] [0x14000000]).fetch = .instr (.b 0) ∧
    (st 4 [] 0 [] [idle, 0x14000000]).fetch = .instr (.b 0) := by
  decide

/-- A state reached in one step, at the end of the program. -/
theorem test_witness_RunCompletesExactlyAtProgramEnd : CompletesIn (st 0 [] 0 [] [idle]) (st 4 [] 0 [] [idle]) ∧
    Reaches (st 0 [] 0 [] [idle]) (st 4 [] 0 [] [idle]) ∧ (st 4 [] 0 [] [idle]).pc.toNat = 4 * 1 :=
  ⟨⟨1, by decide⟩, .step (next_of (by decide)) (.refl _), by decide⟩

/-- From the start, from the last instruction, and from the end. -/
theorem test_witness_StraightLineProgramCompletes :
    Inv (st 0 [] 0 [] [0x8B030041, 0xD1000442]) ∧ Inv (st 4 [] 0 [] [0x8B030041, 0xD1000442]) ∧
    Inv (st 8 [] 0 [] [0x8B030041, 0xD1000442]) ∧ decode 0x8B030041 = .ok (.add 1 2 3) ∧ decode 0xD1000442 = .ok (.subi 2 2 1) ∧
    run 2 (st 0 [(2, 3)] 0 [] [0x8B030041, 0xD1000442]) = .halted (st 8 [(1, 3), (2, 2)] 0 [] [0x8B030041, 0xD1000442]) :=
  ⟨inv_of (by decide), inv_of (by decide), inv_of (by decide), by decide, by decide, by decide⟩

/-! ### Witnesses: invariants, construction and the host -/

theorem test_witness_StepKeepsInvariant : Inv (st 0 [(3, 7)] 7 [9] [0xF80003E3]) ∧
    step (st 0 [(3, 7)] 7 [9] [0xF80003E3]) = .next (st 4 [(3, 7)] 7 [7] [0xF80003E3]) :=
  ⟨inv_of (by decide), next_of (by decide)⟩

/-- A constructed program, two states it reaches, and the fault it meets in the second. -/
theorem test_witness_ConstructedProgramRunsSafely :
    construct [idle, 0xF8400022] ⟨none, [(.register 1, 4)]⟩ = .ok (st 0 [(1, 4)] 0 [] [idle, 0xF8400022]) ∧
    Reaches (st 0 [(1, 4)] 0 [] [idle, 0xF8400022]) (st 4 [(1, 4)] 0 [] [idle, 0xF8400022]) ∧
    step (st 4 [(1, 4)] 0 [] [idle, 0xF8400022]) = .fault (.alignmentError 4) :=
  ⟨by decide, .step (next_of (by decide)) (.refl _), fault_of (by decide)⟩

theorem test_witness_ConstructionReachesLaunchState : LegalProgram [] ∧ LegalProgram [idle] ∧
    construct [] ⟨none, []⟩ = .ok State.reset ∧ construct [idle] ⟨none, []⟩ = .ok (st 0 [] 0 [] [idle]) :=
  ⟨legal_of (by decide), legal_of (by decide), by decide, by decide⟩

/-- A launch state with a register and a byte that are not 0. -/
theorem test_witness_LaunchValuesAreArbitrary : LegalProgram [idle] ∧ IsLaunchState [idle] (st 0 [(1, 5)] 255 [9] [idle]) :=
  ⟨legal_of (by decide), by decide, by decide, by decide⟩

theorem test_witness_RandomiseFillsRegistersAndMemory :
    (0 : RegIndex).val < 31 ∧ (30 : RegIndex).val < 31 ∧ 0 < 256 ∧ 255 < 256 ∧
    ∀ r : Randomisation, (randomise r (st 8 [])).pc = 8 ∧ (randomise r (st 8 [])).x 31 = 0 := by
  exact ⟨by decide, by decide, by decide, by decide, fun r => ⟨rfl, rfl⟩⟩

/-- One bad entry after one good one and before another bad one, as words and as text. -/
theorem test_witness_LoadingAbortsOnFirstBadEntry : LegalProgram [idle] ∧ (∀ i, decode 0 ≠ .ok i) ∧
    construct ([idle] ++ 0 :: [1]) ⟨none, []⟩ = .error (.malformedInstruction 1 (.word 0)) ∧
    (∀ l ∈ ["B #0".toList], ∃ i, Asm.asmDecode l = .ok i) ∧ (∀ i, Asm.asmDecode "B 0".toList ≠ .ok i) := by
  refine ⟨legal_of (by decide), fun i h => ?_, by decide, fun l hl => ⟨.b 0, ?_⟩, fun i h => ?_⟩
  · rw [show decode 0 = .error (.word 0) by decide] at h; cases h
  · rw [List.mem_singleton.mp hl]; decide
  · rw [show Asm.asmDecode "B 0".toList = .error (.line "B 0".toList) by decide] at h; cases h

/-- A register, the first and last double word, pairs that go through before others, an earlier pair for the location of
a later one with another between, and constructions without pairs that succeed. -/
theorem test_witness_LaterPairForSameLocationWins : Memory.wf (st 0 [] 7 [9]).mem ∧
    preconfigure (st 0 [] 7 [9]) [(.register 1, 5), (.register 1, 6)] = .ok (st 0 [(1, 6)] 7 [9]) ∧
    preconfigure (st 0 [] 7 [9]) [(.memory 0, 5), (.memory 0, 6)] = .ok (st 0 [] 7 [6]) ∧
    preconfigure (st 0 []) [(.register 30, 5)] = .ok (st 0 [(30, 5)]) ∧
    preconfigure (st 0 []) ([(.register 30, 5)] ++ [(.memory 248, 6)]) = .ok (st 0 [(30, 5)] 255 [6]) ∧
    preconfigure (st 0 [] 7 [9]) ((.memory 0, 5) :: [(.register 1, 2)] ++ [(.memory 0, 6)]) = .ok (st 0 [(1, 2)] 7 [6]) ∧
    preconfigure (st 0 []) ((.register 1, 5) :: [(.memory 0, 6)] ++ [(.register 1, 7)]) = .ok (st 0 [(1, 7)] 7 [6]) ∧
    construct [idle] ⟨none, []⟩ = .ok (st 0 [] 0 [] [idle]) ∧
    constructText ["B #0".toList] ⟨none, []⟩ = .ok (st 0 [] 0 [] [0x14000000]) := by
  decide

/-- Each kind of failing pair, on both sides of the range. -/
theorem test_witness_FailingPairFailsConstruction : construct [idle] ⟨none, []⟩ = .ok (st 0 [] 0 [] [idle]) ∧
    applyPair (st 0 []) (.memory 12, 1) = .error (.alignmentError 12) ∧
    applyPair (st 0 []) (.memory (-8), 1) = .error (.boundsError (-8)) ∧
    applyPair (st 0 []) (.memory 256, 1) = .error (.boundsError 256) ∧
    applyPair (st 0 []) (.register (-1), 1) = .error (.indexOutOfRange (-1)) ∧
    applyPair (st 0 []) (.register 32, 1) = .error (.indexOutOfRange 32) := by
  decide

theorem test_witness_RegisterAccessorsCheckIndex : readRegister (st 0 []) (-1) = .error (.indexOutOfRange (-1)) ∧
    writeRegister (st 0 []) 32 1 = .error (.indexOutOfRange 32) ∧ writeRegister (st 0 []) 0 1 = .ok (st 0 [(0, 1)]) ∧
    writeRegister (st 0 []) 31 1 = .ok (st 0 []) ∧ readRegister (st 0 [(30, 4)]) 30 = .ok 4 := by
  decide

theorem test_witness_RegisterNamesResolve : resolveName "x07".toList = .error (.invalidRegister "x07".toList) ∧
    resolveName "x30".toList = .ok 30 ∧ resolveName "xZr".toList = .ok 31 ∧
    ["XZR", "xzr", "xZr"].all (fun n => decide (n.toList.map Char.toUpper = ['X', 'Z', 'R'])) = true ∧
    ("x0".toList).map Char.toUpper = 'X' :: Asm.digits 0 ∧ ("x31".toList).map Char.toUpper = 'X' :: Asm.digits 31 ∧
    readRegisterByName (st 0 [(30, 4)]) "X30".toList = .ok 4 := by
  decide

theorem test_witness_EqualityComparesRegistersAndMemory : Memory.wf (st 0 [] 0 [1]).mem ∧ Memory.wf (st 0 [] 255 [1]).mem ∧
    (st 0 [] 0 [1]).mem ≠ (st 0 [] 255 [1]).mem := by
  decide

/-! ### Witnesses: encoding and text -/

/-- The hypotheses `wellFormed`, `decode w = .ok i` and `isRowOf` hold of every vector V1 to V20, which has both ends of
every range. -/
theorem test_witness_DecodeInvertsEncode : vectors.all (fun v => v.2.wellFormed) = true := by decide

theorem test_witness_EncodeInvertsDecode : decode 0xF85003FF = .ok (.ldur 31 31 (-256)) ∧
    encode (.ldur 31 31 (-256)) = 0xF85003FF := by
  decide

theorem test_witness_OpcodeRowsNeverOverlap : vectors.all (fun v => v.2.opcode.isRowOf v.1) = true := by decide

theorem test_witness_OtherWordsAreMalformed : Opcode.all.all (fun op => !op.isRowOf 0) = true ∧
    (0x8B000400 : InsnWord).extractLsb' 21 11 = 0b10001011000 ∧ (0x8B000400 : InsnWord).extractLsb' 10 6 ≠ 0 ∧
    (0xCB00FC00 : InsnWord).extractLsb' 21 11 = 0b11001011000 ∧ (0xCB00FC00 : InsnWord).extractLsb' 10 6 ≠ 0 ∧
    (0xF8400400 : InsnWord).extractLsb' 21 11 = 0b11111000010 ∧ (0xF8400400 : InsnWord).extractLsb' 10 2 ≠ 0 ∧
    (0xF8000C00 : InsnWord).extractLsb' 21 11 = 0b11111000000 ∧ (0xF8000C00 : InsnWord).extractLsb' 10 2 ≠ 0 := by
  decide

theorem test_witness_EncodeConcatenatesFormatFields :
    encode (.addi 1 2 4095) = 0b1001000100#10 ++ 0xFFF#12 ++ 2#5 ++ 1#5 ∧
    encode (.subi 1 2 0) = 0b1101000100#10 ++ 0#12 ++ 2#5 ++ 1#5 ∧
    encode (.stur 3 0 255) = 0b11111000000#11 ++ 0x0FF#9 ++ 0#2 ++ 0#5 ++ 3#5 ∧
    encode (.ldur 3 0 (-256)) = 0b11111000010#11 ++ 0x100#9 ++ 0#2 ++ 0#5 ++ 3#5 ∧
    encode (.b (-33554432)) = 0b000101#6 ++ 0x2000000#26 ∧
    encode (.cbz 31 262143) = 0b10110100#8 ++ 0x3FFFF#19 ++ 31#5 := by
  decide

theorem test_witness_AssemblyTextRoundTrip : (Instr.stur 31 0 (-256)).wellFormed = true ∧
    Asm.print (.stur 31 0 (-256)) = "STUR XZR, [X0, #-256]".toList ∧
    Asm.asmDecode "STUR XZR, [X0, #-256]".toList = .ok (.stur 31 0 (-256)) := by
  decide

/-- A line that decodes and one that does not. -/
theorem test_witness_AcceptedLinesAreWellFormed : Asm.asmDecode "cbnz x30 #-262144".toList = .ok (.cbnz 30 (-262144)) ∧
    Asm.validate "cbnz x30 #-262144".toList = .ok () ∧ (∀ i, Asm.asmDecode "CBZ X0".toList ≠ .ok i) := by
  refine ⟨by decide, by decide, fun i h => ?_⟩
  rw [show Asm.asmDecode "CBZ X0".toList = .error (.line "CBZ X0".toList) by decide] at h; cases h

theorem test_witness_LetterCaseDoesNotMatter :
    ("LdUr x5, [xZr, #8]".toList).map Char.toUpper = ("LDUR X5, [XZR, #8]".toList).map Char.toUpper ∧
    Asm.asmDecode "LdUr x5, [xZr, #8]".toList = .ok (.ldur 5 31 8) := by
  decide

theorem test_witness_TextAndWordProgramsAgree : constructText ["ADD XZR, XZR, XZR".toList, "B #0".toList] ⟨none, []⟩ =
    .ok (st 0 [] 0 [] [idle, 0x14000000]) := by
  decide

end Sys2Proof.Tests
end

section
/-! Proofs of the family 10_state: the register file, randomisation, equality of instances, and one step of the engine
(10_state.md rules R22, R36, R43, R51), with the facts about the state that they need. -/

/-! ### Registers -/

namespace Sys2Proof.Machine.State

/-- The read of an index that has a slot. -/
theorem x_of_lt (s : State) {i : RegIndex} (h : i.val < Config.zeroReg) : s.x i = s.regs[i.val] := dif_pos h

/-- The register file is its slots: there is nothing to compare at index 31. -/
theorem x_eq_iff_regs_eq {s t : State} : (∀ r : RegIndex, s.x r = t.x r) ↔ s.regs = t.regs :=
  ⟨regs_ext, fun h r => by simp only [x, h]⟩

end Sys2Proof.Machine.State

namespace Sys2Proof.Machine

/-- Settles O1: every clause is a read-after-write law of the register file. -/
theorem zeroRegisterWiredOthersHold : Obligations.ZeroRegisterWiredOthersHold := by
  intro s v
  refine ⟨s.x_zeroReg, s.setX_zeroReg v, fun i hi => ?_⟩
  exact ⟨s.x_setX_self v hi, fun r hr => s.x_setX_other v hr, State.x_zeroReg _, s.setX_pc i v, s.setX_mem i v,
    s.setX_prog i v⟩

end Sys2Proof.Machine

/-! ### Contents of memory -/

namespace Sys2Proof.Machine.Memory

/-- A memory in canonical form lists nothing beyond its 256 cells. -/
theorem read_of_memSize_le {m : Memory} (hm : wf m) {a : Nat} (ha : Config.memSize ≤ a) :
    read m a = Config.unlistedByte := by
  induction m with
  | nil => rfl
  | cons c m ih =>
    obtain ⟨k, v⟩ := c
    obtain ⟨⟨hk, -⟩, -, htl⟩ := wf_cons_iff.mp hm
    rw [read_cons_cell, if_neg (Nat.ne_of_lt (Nat.lt_of_lt_of_le hk ha)), ih htl]

/-- Memories in canonical form are equal data exactly when their 256 cells read the same. -/
theorem eq_iff_read_eq {m m' : Memory} (hm : wf m) (hm' : wf m') :
    m = m' ↔ ∀ a < Config.memSize, read m a = read m' a := by
  constructor
  · rintro rfl a -
    rfl
  · intro h
    refine ext_of_read hm hm' fun a => ?_
    rcases Nat.lt_or_ge a Config.memSize with ha | ha
    · exact h a ha
    · rw [read_of_memSize_le hm ha, read_of_memSize_le hm' ha]

/-- The memory filled from a vector of 256 bytes reads as that vector. -/
theorem read_ofBytes_toList (bytes : Vector Byte Config.memSize) {a : Nat} (ha : a < Config.memSize) :
    read (ofBytes 0 bytes.toList) a = bytes[a] := by
  rw [read_ofBytes _ _ _ (by simp), if_pos (Nat.zero_le a), Nat.sub_zero]
  simp [ha]

end Sys2Proof.Machine.Memory

/-! ### Randomisation and equality of instances -/

namespace Sys2Proof.Machine

@[simp] theorem randomise_regs (r : Randomisation) (s : State) : (randomise r s).regs = r.regs := rfl
@[simp] theorem randomise_mem (r : Randomisation) (s : State) :
    (randomise r s).mem = Memory.ofBytes 0 r.bytes.toList := rfl
@[simp] theorem randomise_pc (r : Randomisation) (s : State) : (randomise r s).pc = s.pc := rfl
@[simp] theorem randomise_prog (r : Randomisation) (s : State) : (randomise r s).prog = s.prog := rfl

/-- Settles O43: a register with a slot reads the chosen one, and a byte reads the one it was filled from. -/
theorem randomiseFillsRegistersAndMemory : Obligations.RandomiseFillsRegistersAndMemory := by
  intro r s
  refine ⟨fun i hi => ?_, fun a ha => ?_, State.x_zeroReg _, randomise_pc r s, randomise_prog r s⟩
  · exact State.x_of_lt _ hi
  · rw [randomise_mem]
    exact Memory.read_ofBytes_toList r.bytes ha

theorem registerSnapshot_eq_iff {s t : State} :
    registerSnapshot s = registerSnapshot t ↔ ∀ r : RegIndex, s.x r = t.x r := by
  simp [registerSnapshot, Vector.ext_iff, Fin.forall_iff]

theorem memorySnapshot_eq_iff {s t : State} :
    memorySnapshot s = memorySnapshot t ↔ ∀ a < Config.memSize, s.mem.read a = t.mem.read a := by
  simp [memorySnapshot, Vector.ext_iff]

/-- Equality of instances compares what the registers and the 256 cells read as. -/
theorem equalInstances_iff {s t : State} : equalInstances s t = true ↔
    (∀ r : RegIndex, s.x r = t.x r) ∧ ∀ a < Config.memSize, s.mem.read a = t.mem.read a := by
  rw [equalInstances, Bool.and_eq_true, beq_iff_eq, beq_iff_eq, registerSnapshot_eq_iff, memorySnapshot_eq_iff]

/-- Settles O49: registers and canonical memories are determined by what they read as. -/
theorem equalityComparesRegistersAndMemory : Obligations.EqualityComparesRegistersAndMemory := by
  intro s t
  refine ⟨equalInstances_iff, fun hs ht => ?_⟩
  rw [equalInstances_iff, State.x_eq_iff_regs_eq, Memory.eq_iff_read_eq hs ht]

end Sys2Proof.Machine

/-! ### One step -/

namespace Sys2Proof.Machine

theorem State.fetch_of_end {s : State} (h : s.pc.toNat = s.progEnd) : s.fetch = .halted :=
  if_pos (s.cleanHalt_iff.mpr h)

theorem State.fetch_of_beyond {s : State} (h : s.progEnd < s.pc.toNat) : s.fetch = .fault (.outOfBounds s.pc) := by
  rcases fetch_cases s with ⟨hend, -⟩ | ⟨-, hf⟩ | ⟨-, hlt, -⟩
  · omega
  · exact hf
  · omega

/-- The fetch at an offset `4 * k` inside the program finds entry `k`, decoded. -/
theorem State.fetch_of_decode {s : State} {k : Nat} (hk : k < s.prog.length) {i : Instr} (hpc : s.pc.toNat = 4 * k)
    (hd : decode s.prog[k] = .ok i) : s.fetch = .instr i := by
  have hidx : s.pc.toNat / 4 = k := by omega
  have hend := s.progEnd_eq
  rcases fetch_cases s with ⟨h, -⟩ | ⟨h, -⟩ | ⟨_, -, ⟨j, hj, hf⟩ | ⟨e, he, -⟩⟩
  · omega
  · omega
  · simp only [hidx, hd, Except.ok.injEq] at hj
    rw [hf, hj]
  · simp [hidx, hd] at he

theorem step_of_end {s : State} (h : s.pc.toNat = s.progEnd) : step s = .next s := by
  rw [step, State.fetch_of_end h]

theorem step_of_beyond {s : State} (h : s.progEnd < s.pc.toNat) : step s = .fault (.outOfBounds s.pc) := by
  simp only [step, State.fetch_of_beyond h, raise]

theorem step_of_fetch_instr {s : State} {i : Instr} (h : s.fetch = .instr i) : step s = exec i s := by
  rw [step, h]

theorem stepCall_of_end {s : State} (h : s.pc.toNat = s.progEnd) : stepCall s = .halted s :=
  if_pos (s.cleanHalt_iff.mpr h)

/-- A step that faults is not at a clean halt, so the call reports its fault, and with the state before it. -/
theorem stepCall_of_fault {s : State} {f : Fault} (h : step s = .fault f) : stepCall s = .faulted f s := by
  have hc : s.cleanHalt ≠ true := fun hc => by
    rw [step_of_end (s.cleanHalt_iff.mp hc)] at h
    cases h
  rw [stepCall, if_neg hc, h]

/-- Settles O28: the clauses are the three things a fetch can find, and the report of a fault. -/
theorem stepExecutesFetchedInstruction : Obligations.StepExecutesFetchedInstruction := fun _ =>
  ⟨stepCall_of_end, step_of_beyond,
    fun _ hk _ hpc hd => step_of_fetch_instr (State.fetch_of_decode hk hpc hd),
    fun _ => stepCall_of_fault⟩

end Sys2Proof.Machine
end

section
/-! Proofs of the family 20_memory: the double-word and byte accessors, their checks, and the separation of memory from
the program (20_memory.md rules R63, R64, R66, R67, R68, R71, R78), with the facts about memory that they need. -/

/-! ### A double word read after it is written, and written after it is read -/

namespace Sys2Proof.Machine.Memory

/-- The double word written reads back. -/
theorem readDouble_writeDouble {m : Memory} {a : Nat} (v : Word) (hm : wf m) (ha : a + 8 ≤ Config.memSize) :
    readDouble (writeDouble m a v) a = v := by
  refine word_ext_of_bytes fun j hj => ?_
  rw [byteOf_readDouble _ _ hj, read_writeDouble v hm ha, if_pos (by omega), Nat.add_sub_cancel_left]

/-- Of two double words written at one address the second stays. -/
theorem writeDouble_writeDouble {m : Memory} {a : Nat} (v w : Word) (hm : wf m) (ha : a + 8 ≤ Config.memSize) :
    writeDouble (writeDouble m a v) a w = writeDouble m a w := by
  have hv := wf_writeDouble v hm ha
  refine ext_of_read (wf_writeDouble w hv ha) (wf_writeDouble w hm ha) fun b => ?_
  rw [read_writeDouble w hv ha, read_writeDouble w hm ha, read_writeDouble v hm ha]
  split <;> rfl

/-- The double word that is there, written over itself, changes nothing. -/
theorem writeDouble_readDouble {m : Memory} {a : Nat} (hm : wf m) (ha : a + 8 ≤ Config.memSize) :
    writeDouble m a (readDouble m a) = m := by
  refine ext_of_read (wf_writeDouble _ hm ha) hm fun b => ?_
  rw [read_writeDouble _ hm ha]
  split
  · next hb => rw [byteOf_readDouble _ _ (by omega), Nat.add_sub_cancel' hb.1]
  · rfl

end Sys2Proof.Machine.Memory

/-! ### The checked double-word access -/

namespace Sys2Proof.Machine

theorem memRead_of_check_error {addr : Int} {f : Fault} (h : checkDouble addr = .error f) (m : Memory) :
    memRead m addr = .error f := by
  rw [memRead, h]

theorem memWrite_of_check_error {addr : Int} {f : Fault} (h : checkDouble addr = .error f) (m : Memory) (v : Word) :
    memWrite m addr v = .error f := by
  rw [memWrite, h]

theorem memRead_inside {addr : Int} (ha : addr % 8 = 0) (h0 : 0 ≤ addr) (h1 : addr ≤ 248) (m : Memory) :
    memRead m addr = .ok (m.readDouble addr.toNat) := by
  rw [memRead, checkDouble_inside ha h0 h1]

theorem memWrite_inside {addr : Int} (ha : addr % 8 = 0) (h0 : 0 ≤ addr) (h1 : addr ≤ 248) (m : Memory) (v : Word) :
    memWrite m addr v = .ok (m.writeDouble addr.toNat v) := by
  rw [memWrite, checkDouble_inside ha h0 h1]

theorem isDoubleWordAt_readDouble (m : Memory) (addr : Int) : IsDoubleWordAt m addr (m.readDouble addr.toNat) :=
  fun _ hj => Memory.byteOf_readDouble m addr.toNat hj

/-- A checked write puts the double word at its address. -/
theorem isDoubleWordAt_memWrite {m m' : Memory} {addr : Int} {v : Word} (h : memWrite m addr v = .ok m') (hm : m.wf) :
    IsDoubleWordAt m' addr v := by
  intro j hj
  obtain ⟨-, h0, -⟩ := memWrite_ok h
  rw [read_memWrite h hm, if_pos (by omega), Nat.add_sub_cancel_left]
  rfl

/-- A checked write leaves every byte outside its double word. -/
theorem read_memWrite_outside {m m' : Memory} {addr : Int} {v : Word} (h : memWrite m addr v = .ok m') (hm : m.wf)
    {a : Nat} (ha : (a : Int) < addr ∨ addr + 8 ≤ a) : m'.read a = m.read a := by
  rw [read_memWrite h hm, if_neg (by omega)]

/-- Settles O17: the clauses are the three outcomes of the double-word check. -/
theorem memReadChecksThenReads : Obligations.MemReadChecksThenReads := by
  intro m addr
  refine ⟨fun ha => ?misaligned, fun ha hout => ?outside, fun ha h0 h1 => ?inside⟩
  case misaligned => exact memRead_of_check_error (checkDouble_misaligned ha) m
  case outside => exact memRead_of_check_error (checkDouble_outside ha (by omega)) m
  case inside => exact ⟨_, memRead_inside ha h0 (by omega) m, isDoubleWordAt_readDouble m addr⟩

/-- Settles O18: the outcomes of the double-word check again, and every byte after a checked write. -/
theorem memWriteChecksThenWrites : Obligations.MemWriteChecksThenWrites := by
  intro m addr v hm
  refine ⟨fun ha => ?misaligned, fun ha hout => ?outside, fun ha h0 h1 => ?inside⟩
  case misaligned => exact memWrite_of_check_error (checkDouble_misaligned ha) m v
  case outside => exact memWrite_of_check_error (checkDouble_outside ha (by omega)) m v
  case inside =>
    have hw := memWrite_inside ha h0 (by omega) m v
    exact ⟨_, hw, wf_memWrite hw hm, isDoubleWordAt_memWrite hw hm, fun _ hb => read_memWrite_outside hw hm hb⟩

/-! ### The host's double-word accessors -/

theorem writeDoubleWord_of_check_error {addr : Int} {f : Fault} (h : checkDouble addr = .error f) (s : State)
    (v : Word) : writeDoubleWord s addr v = .error f := by
  rw [writeDoubleWord, memWrite_of_check_error h]

theorem writeDoubleWord_inside {addr : Int} (ha : addr % 8 = 0) (h0 : 0 ≤ addr) (h1 : addr ≤ 248) (s : State)
    (v : Word) : writeDoubleWord s addr v = .ok (s.setMem (s.mem.writeDouble addr.toNat v)) := by
  rw [writeDoubleWord, memWrite_inside ha h0 h1]

/-- The signed and the unsigned reading of a word agree modulo 8 (they differ by 0 or 2^64). -/
theorem toInt_emod_eight (v : Word) : v.toInt % 8 = (v.toNat : Int) % 8 := by
  rw [BitVec.toInt_eq_toNat_cond]
  split <;> omega

/-- Settles O19: the alignment check comes first, for a read and for a write. -/
theorem misalignedAccessAlwaysFails : Obligations.MisalignedAccessAlwaysFails := by
  refine ⟨fun s addr v ha => ?_, toInt_emod_eight⟩
  have hc := checkDouble_misaligned ha
  exact ⟨writeDoubleWord_of_check_error hc s v, memRead_of_check_error hc s.mem⟩

/-- An aligned address that is none of 0, 8, …, 248 lies below 0 or above 248. -/
theorem outside_of_ne_multiples {addr : Int} (ha : addr % 8 = 0) (hne : ∀ k : Nat, k ≤ 31 → addr ≠ 8 * k) :
    addr < 0 ∨ 248 < addr := by
  by_contra hin
  exact hne (addr / 8).toNat (by omega) (by omega)

/-- Settles O20: an aligned address that is no double word of memory fails the bounds check. -/
theorem alignedAccessOutsideFails : Obligations.AlignedAccessOutsideFails := by
  intro s addr v ha hne
  have hout := outside_of_ne_multiples ha hne
  have hc := checkDouble_outside ha hout
  exact ⟨by omega, writeDoubleWord_of_check_error hc s v, memRead_of_check_error hc s.mem⟩

/-- Settles O21: a write is replaced by the next one at its address, reads back, and is none if it writes what is
there. -/
theorem memoryIsPlainStorage : Obligations.MemoryIsPlainStorage := by
  intro s a v hm ha h0 h7
  have h1 : a ≤ 248 := by omega
  have hfit : a.toNat + 8 ≤ Config.memSize := by show a.toNat + 8 ≤ 256; omega
  refine ⟨_, writeDoubleWord_inside ha h0 h1 s v, ?readsBack, ?again, ?outside, s.setMem_x _, s.setMem_pc _,
    s.setMem_prog _, ?whatIsThere⟩
  case readsBack =>
    rw [readDoubleWord, memRead_inside ha h0 h1, State.setMem_mem, Memory.readDouble_writeDouble v hm hfit]
  case again =>
    rw [writeDoubleWord_inside ha h0 h1, State.setMem_mem, Memory.writeDouble_writeDouble v v hm hfit]
    rfl
  case outside => exact fun _ hb => read_memWrite_outside (memWrite_inside ha h0 h1 s.mem v) hm hb
  case whatIsThere =>
    intro w hw
    obtain ⟨-, -, -, rfl⟩ := memRead_ok hw
    rw [writeDoubleWord_inside ha h0 h1, Memory.writeDouble_readDouble hm hfit]
    rfl

/-! ### The host's byte accessors -/

theorem checkByte_outside {addr : Int} (h : addr < 0 ∨ 256 ≤ addr) : checkByte addr = .error (.boundsError addr) :=
  if_pos (by omega)

theorem checkByte_inside {addr : Int} (h0 : 0 ≤ addr) (h1 : addr < 256) : checkByte addr = .ok addr.toNat :=
  if_neg (by omega)

/-- Settles O22: the two outcomes of the byte check, and a read after the write of one byte. -/
theorem byteAccessorsCheckBoundsOnly : Obligations.ByteAccessorsCheckBoundsOnly := by
  intro s addr b hm
  refine ⟨fun hout => ?outside, fun h0 h1 => ?inside⟩
  case outside => simp only [readByte, writeByte, checkByte_outside hout, and_self]
  case inside =>
    have hread := Memory.read_write hm addr.toNat b
    refine ⟨by rw [readByte, checkByte_inside h0 h1], s.setMem (s.mem.write addr.toNat b),
      by rw [writeByte, checkByte_inside h0 h1], ?cell, fun a ha => ?otherCells, s.setMem_x _, s.setMem_pc _,
      s.setMem_prog _⟩
    case cell => rw [State.setMem_mem, hread, if_pos rfl]
    case otherCells => rw [State.setMem_mem, hread, if_neg (by omega)]

/-! ### The program is out of reach -/

/-- A step that goes on stood at a clean halt and changed nothing, or executed the instruction fetched. -/
theorem step_next {s t : State} (h : step s = .next t) :
    (s.fetch = .halted ∧ t = s) ∨ ∃ i, s.fetch = .instr i ∧ exec i s = .next t := by
  unfold step at h
  split at h
  · next hf => cases h; exact .inl ⟨hf, rfl⟩
  · cases h
  · next i hf => exact .inr ⟨i, hf, h⟩

/-- No step changes the program. -/
theorem step_prog {s t : State} (h : step s = .next t) : t.prog = s.prog := by
  obtain ⟨-, rfl⟩ | ⟨i, -, he⟩ := step_next h
  · rfl
  · exact exec_prog he

/-- A fetch depends on the program counter and the program alone: `fetch` projects no other field. -/
theorem State.fetch_congr {s t : State} (hpc : s.pc = t.pc) (hprog : s.prog = t.prog) : s.fetch = t.fetch := by
  cases s
  cases t
  cases hpc
  cases hprog
  rfl

/-- Settles O26: no instruction changes the program, and a fetch does not see memory. -/
theorem storesNeverReachTheProgram : Obligations.StoresNeverReachTheProgram :=
  ⟨fun _ _ => step_prog, fun _ _ => State.fetch_congr⟩

end Sys2Proof.Machine
end

section
/-! Proofs of the family 40_register_alu: ADD and SUB (40_register_alu.md rules R141, R142), with the facts about the rows
of the opcode table (30_encoding.md rules R100, R105) and about a register-writing instruction that they need. -/

/-! ### Rows of the opcode table -/

namespace Sys2Proof.Opcode

theorem mem_all (op : Opcode) : op ∈ all := by cases op <;> decide

theorem isRowOf_iff {op : Opcode} {w : InsnWord} : op.isRowOf w = true ↔ w &&& op.mask = op.pattern := beq_iff_eq

/-- Two rows that agree where both of their masks look are one row. -/
theorem eq_of_pattern_and_mask_eq {p q : Opcode} (h : p.pattern &&& q.mask = q.pattern &&& p.mask) : p = q := by
  have rows : ∀ p ∈ all, ∀ q ∈ all, p.pattern &&& q.mask = q.pattern &&& p.mask → p = q := by decide
  exact rows p p.mem_all q q.mem_all h

/-- A word of two rows makes their patterns agree under the common mask, so no word is of two rows. -/
theorem eq_of_isRowOf {p q : Opcode} {w : InsnWord} (hp : p.isRowOf w = true) (hq : q.isRowOf w = true) : p = q := by
  apply eq_of_pattern_and_mask_eq
  rw [← isRowOf_iff.mp hp, ← isRowOf_iff.mp hq, BitVec.and_assoc, BitVec.and_assoc, BitVec.and_comm p.mask]

end Sys2Proof.Opcode

namespace Sys2Proof

/-- The decoder on a word of a row; which row the search meets first does not matter. -/
theorem decode_of_isRowOf {op : Opcode} {w : InsnWord} (h : op.isRowOf w = true) :
    decode w = .ok (operandsOf op w) := by
  unfold decode
  split
  · next q hq =>
    have hrow : q.isRowOf w = true := by simpa using List.find?_some hq
    rw [Opcode.eq_of_isRowOf hrow h]
  · next hnone => exact absurd h (List.find?_eq_none.mp hnone op op.mem_all)

end Sys2Proof

/-! ### Register-writing instructions, and the register class -/

namespace Sys2Proof.Machine

/-- Writing `v` to register `d` and advancing is all that a register-writing instruction does. -/
theorem registerResult_setX_advance (d : RegIndex) (v : Word) (s : State) :
    RegisterResult d v s (s.setX d v).advance where
  result hd := by simp [hd]
  zero := by simp
  others r hr := by simp [State.x_setX_other s v hr]
  pc := by simp
  mem a := by simp
  prog := by simp

/-- The library states this for sums, negations and products, not for differences. -/
theorem ofInt_sub (i j : Int) : BitVec.ofInt 64 (i - j) = BitVec.ofInt 64 i - BitVec.ofInt 64 j := by
  rw [Int.sub_eq_add_neg, BitVec.ofInt_add, BitVec.ofInt_neg, BitVec.sub_eq_add_neg]

theorem alu_add (a b : Word) : alu .add a b = BitVec.ofNat 64 (a.toNat + b.toNat) := by
  simp [alu, BitVec.ofNat_add]

theorem alu_sub (a b : Word) : alu .sub a b = BitVec.ofInt 64 (a.toNat - b.toNat : Int) := by
  simp [alu, ofInt_sub]

/-- The register class has no fault once its operands resolve. -/
theorem registerAlu_index (op : AluOp) (d n m : RegIndex) (s : State) :
    registerAlu op d n m s = .next (s.setX d (alu op (s.x n) (s.x m))).advance := by
  simp [registerAlu]

theorem registerAlu_result (op : AluOp) (d n m : RegIndex) (s : State) :
    ∃ t, registerAlu op d n m s = .next t ∧ RegisterResult d (alu op (s.x n) (s.x m)) s t :=
  ⟨_, registerAlu_index op d n m s, registerResult_setX_advance d _ s⟩

/-- Settles O3: ADD is the register class with the ALU's sum, and a word of its row decodes to its operands. -/
theorem addWritesSumModulo : Obligations.AddWritesSumModulo := by
  refine ⟨fun s d n m => ?_, fun w hw => decode_of_isRowOf (op := .add) (Opcode.isRowOf_iff.mpr hw)⟩
  rw [← alu_add]
  exact registerAlu_result .add d n m s

/-- Settles O4: SUB is the register class with the ALU's difference, and a word of its row decodes to its operands. -/
theorem subWritesDifferenceModulo : Obligations.SubWritesDifferenceModulo := by
  refine ⟨fun s d n m => ?_, fun w hw => decode_of_isRowOf (op := .sub) (Opcode.isRowOf_iff.mpr hw)⟩
  rw [← alu_sub]
  exact registerAlu_result .sub d n m s

end Sys2Proof.Machine
end

section
/-! Proofs of the family 41_immediate_alu: ADDI and SUBI (41_immediate_alu.md rules R150, R151, R152), on the facts
about table rows and register-writing instructions of the family before. -/

namespace Sys2Proof.Machine

theorem alu_add_immediateWord (a : Word) (imm : Int) :
    alu .add a (immediateWord imm) = BitVec.ofInt 64 (a.toNat + imm) := by
  simp [alu, immediateWord, BitVec.ofInt_add]

theorem alu_sub_immediateWord (a : Word) (imm : Int) :
    alu .sub a (immediateWord imm) = BitVec.ofInt 64 (a.toNat - imm) := by
  simp [alu, immediateWord, ofInt_sub]

/-- The range of the immediate class in the obligations' form (rule R150). -/
theorem immI_contains_iff (imm : Int) : Config.immI.contains imm = true ↔ 0 ≤ imm ∧ imm ≤ 4095 :=
  contains_iff Config.immI imm

/-- The immediate class once its operands resolve: what is left of it is the check of rule R150. -/
theorem immediateAlu_index (op : AluOp) (d n : RegIndex) (imm : Int) (s : State) :
    immediateAlu op d n imm s =
      withImm Config.immI imm (.next (s.setX d (alu op (s.x n) (immediateWord imm))).advance) := by
  simp [immediateAlu]

theorem immediateAlu_result (op : AluOp) (d n : RegIndex) {imm : Int} (h0 : 0 ≤ imm) (h1 : imm ≤ 4095) (s : State) :
    ∃ t, immediateAlu op d n imm s = .next t ∧ RegisterResult d (alu op (s.x n) (immediateWord imm)) s t := by
  rw [immediateAlu_index, withImm_in ((immI_contains_iff imm).mpr ⟨h0, h1⟩)]
  exact ⟨_, rfl, registerResult_setX_advance d _ s⟩

theorem immediateAlu_outside (op : AluOp) (d n : RegIndex) {imm : Int} (h : imm < 0 ∨ 4095 < imm) (s : State) :
    immediateAlu op d n imm s = .fault (.invalidImmediate imm) := by
  have hout : Config.immI.contains imm = false := by
    rw [Bool.eq_false_iff, ne_eq, immI_contains_iff]
    omega
  rw [immediateAlu_index, withImm_out hout, raise]

/-- Settles O5: ADDI is the immediate class with the ALU's sum, and a word of its row decodes to its operands. -/
theorem addiAddsZeroExtended : Obligations.AddiAddsZeroExtended := by
  refine ⟨fun s d n imm h0 h1 => ?_, fun s d n imm h => immediateAlu_outside .add d n h s,
    fun w hw => decode_of_isRowOf (op := .addi) (Opcode.isRowOf_iff.mpr hw)⟩
  rw [← alu_add_immediateWord]
  exact immediateAlu_result .add d n h0 h1 s

/-- Settles O6: SUBI is the immediate class with the ALU's difference, and a word of its row decodes to its operands. -/
theorem subiSubtractsZeroExtended : Obligations.SubiSubtractsZeroExtended := by
  refine ⟨fun s d n imm h0 h1 => ?_, fun s d n imm h => immediateAlu_outside .sub d n h s,
    fun w hw => decode_of_isRowOf (op := .subi) (Opcode.isRowOf_iff.mpr hw)⟩
  rw [← alu_sub_immediateWord]
  exact immediateAlu_result .sub d n h0 h1 s

end Sys2Proof.Machine
end

section
/-! Proofs of the family 42_load_store: LDUR and STUR (42_load_store.md rules R162, R163, R164), on the checked
double-word access of 20_memory and the facts about table rows and register-writing instructions of 40_register_alu. -/

namespace Sys2Proof.Machine

/-! ### What the two instructions have in common -/

/-- The range of the memory class in the obligations' form (rule R160). -/
theorem immD_contains_iff (imm : Int) : Config.immD.contains imm = true ↔ -256 ≤ imm ∧ imm ≤ 255 :=
  contains_iff Config.immD imm

/-- How a checked access ends an instruction: its fault, or the state that what it answers leads to. -/
def afterAccess {α : Type} (done : α → State) : Except Fault α → Host.Outcome State Fault Refusal
  | .error f => raise f
  | .ok a => .next (done a)

/-- LDUR once its operands resolve: the check of the immediate, then the checks of a read (rule R162). -/
theorem exec_ldur_index (t n : RegIndex) (imm : Int) (s : State) :
    exec (.ldur t n imm) s = withImm Config.immD imm
      (afterAccess (fun v => (s.setX t v).advance) (memRead s.mem (effectiveAddress s n imm))) := by
  simp only [exec, execLdur, withReg_index]
  cases memRead s.mem (effectiveAddress s n imm) <;> rfl

/-- STUR once its operands resolve: the check of the immediate, then the checks of a write (rule R162). -/
theorem exec_stur_index (t n : RegIndex) (imm : Int) (s : State) :
    exec (.stur t n imm) s = withImm Config.immD imm
      (afterAccess (fun m => (s.setMem m).advance) (memWrite s.mem (effectiveAddress s n imm) (s.x t))) := by
  simp only [exec, execStur, withReg_index]
  cases memWrite s.mem (effectiveAddress s n imm) (s.x t) <;> rfl

theorem immD_check_outside {imm : Int} (h : imm < -256 ∨ 255 < imm) (body : Host.Outcome State Fault Refusal) :
    withImm Config.immD imm body = .fault (.invalidImmediate imm) := by
  have hout : Config.immD.contains imm = false := by
    rw [Bool.eq_false_iff, ne_eq, immD_contains_iff]
    omega
  rw [withImm_out hout, raise]

section
variable {α : Type} {imm : Int} {access : Except Fault α} {done : α → State}

theorem afterAccess_error {f : Fault} (h0 : -256 ≤ imm) (h1 : imm ≤ 255) (ha : access = .error f) :
    withImm Config.immD imm (afterAccess done access) = .fault f := by
  rw [withImm_in ((immD_contains_iff imm).mpr ⟨h0, h1⟩), ha, afterAccess, raise]

theorem afterAccess_ok {a : α} (h0 : -256 ≤ imm) (h1 : imm ≤ 255) (ha : access = .ok a) :
    withImm Config.immD imm (afterAccess done access) = .next (done a) := by
  rw [withImm_in ((immD_contains_iff imm).mpr ⟨h0, h1⟩), ha, afterAccess]

end

/-- A checked write and the advance are all that a store does. -/
theorem storeResult_memWrite {s : State} {m : Memory} {addr : Int} {v : Word} (h : memWrite s.mem addr v = .ok m)
    (hm : s.mem.wf) : StoreResult addr v s (s.setMem m).advance where
  stored j hj := (isDoubleWordAt_memWrite h hm j hj).symm
  others _ ha := read_memWrite_outside h hm ha
  regs r := by simp
  pc := by simp
  prog := by simp

/-! ### The two instructions -/

/-- Settles O7: LDUR is a checked read, whose faults are those of the double-word check, into a register. -/
theorem ldurLoadsCheckedDoubleWord : Obligations.LdurLoadsCheckedDoubleWord := by
  refine ⟨fun s t n imm => ?_, fun w hw => decode_of_isRowOf (op := .ldur) (Opcode.isRowOf_iff.mpr hw)⟩
  rw [exec_ldur_index]
  refine ⟨rfl, fun h => immD_check_outside h _, fun h0 h1 =>
    ⟨fun ha => ?misaligned, fun ha hout => ?outside, fun ha hlo hhi => ?inside⟩⟩
  case misaligned => exact afterAccess_error h0 h1 (memRead_of_check_error (checkDouble_misaligned ha) s.mem)
  case outside => exact afterAccess_error h0 h1 (memRead_of_check_error (checkDouble_outside ha hout) s.mem)
  case inside =>
    exact ⟨_, _, isDoubleWordAt_readDouble s.mem _, afterAccess_ok h0 h1 (memRead_inside ha hlo hhi s.mem),
      registerResult_setX_advance t _ s⟩

/-- Settles O8: STUR is a checked write, whose faults are those of the double-word check, of a register. -/
theorem sturStoresCheckedDoubleWord : Obligations.SturStoresCheckedDoubleWord := by
  refine ⟨fun s t n imm => ?_, fun w hw => decode_of_isRowOf (op := .stur) (Opcode.isRowOf_iff.mpr hw)⟩
  rw [exec_stur_index]
  refine ⟨rfl, fun h => immD_check_outside h _, fun h0 h1 =>
    ⟨fun ha => ?misaligned, fun ha hout => ?outside, fun ha hlo hhi hm => ?inside⟩⟩
  case misaligned => exact afterAccess_error h0 h1 (memWrite_of_check_error (checkDouble_misaligned ha) s.mem (s.x t))
  case outside => exact afterAccess_error h0 h1 (memWrite_of_check_error (checkDouble_outside ha hout) s.mem (s.x t))
  case inside =>
    have hw := memWrite_inside ha hlo hhi s.mem (s.x t)
    exact ⟨_, afterAccess_ok h0 h1 hw, storeResult_memWrite hw hm⟩

end Sys2Proof.Machine
end

section
/-! Proofs of the family 43_branch: B (43_branch.md rules R170, R171), on the facts about one step of 10_state and about
table rows of 40_register_alu. -/

namespace Sys2Proof.Machine

/-- Setting the `pc` is all that a branch does, taken or not; what the next step does with the target is the step's
own case at the program's end and beyond it. -/
theorem branchResult_setPc (target : Word) (s : State) : BranchResult target s (s.setPc target) where
  pc := s.setPc_pc target
  beyond h := step_of_beyond (s := s.setPc target) (by rwa [State.progEnd_eq])
  atEnd h := by
    have hend : (s.setPc target).pc.toNat = (s.setPc target).progEnd := by rwa [State.progEnd_eq]
    exact ⟨(State.cleanHalt_iff _).mpr hend, stepCall_of_end hend⟩
  regs := s.setPc_x target
  mem _ := by rw [State.setPc_mem]
  prog := s.setPc_prog target

/-- The word sum of a jump is the integer `pc + 4 * imm` modulo 2^64. -/
theorem State.jump_eq_setPc (s : State) (imm : Int) :
    s.jump imm = s.setPc (BitVec.ofInt 64 (s.pc.toNat + 4 * imm)) := by
  rw [State.jump, BitVec.ofInt_add, BitVec.ofInt_natCast, BitVec.ofNat_toNat, BitVec.setWidth_eq]

/-- The re-validation of an immediate outside its class's range, for any class. -/
theorem withImm_outside {range : ImmRange} {imm : Int} (h : imm < range.lo ∨ range.hi < imm)
    (body : Host.Outcome State Fault Refusal) : withImm range imm body = .fault (.invalidImmediate imm) := by
  have hout : range.contains imm = false := by
    rw [Bool.eq_false_iff, ne_eq, contains_iff]
    omega
  rw [withImm_out hout, raise]

theorem execB_inside {imm : Int} (h0 : -33554432 ≤ imm) (h1 : imm ≤ 33554431) (s : State) :
    execB imm s = .next (s.jump imm) :=
  withImm_in ((contains_iff Config.immB imm).mpr ⟨h0, h1⟩) _

theorem execB_outside {imm : Int} (h : imm < -33554432 ∨ 33554431 < imm) (s : State) :
    execB imm s = .fault (.invalidImmediate imm) :=
  withImm_outside (range := Config.immB) h _

/-- Settles O9: B is a jump within its range, and a word of its row decodes to its offset. -/
theorem branchAddsFourTimesOffset : Obligations.BranchAddsFourTimesOffset := by
  refine ⟨fun s imm h0 h1 => ⟨s.jump imm, execB_inside h0 h1 s, ?result⟩, fun s imm h => execB_outside h s,
    fun w hw => decode_of_isRowOf (op := .b) (Opcode.isRowOf_iff.mpr hw)⟩
  case result =>
    rw [State.jump_eq_setPc]
    exact branchResult_setPc _ s

end Sys2Proof.Machine
end

section
/-! Proofs of the family 44_cond_branch: CBZ and CBNZ (44_cond_branch.md rules R180, R181, R182), on the facts about a
set `pc` and a re-validated immediate of 43_branch and about table rows of 40_register_alu. -/

namespace Sys2Proof.Machine

/-- The zero test looks at all 64 bits, as one unsigned number (rule R181). -/
theorem isZero_iff (v : Word) : isZero v = true ↔ v.toNat = 0 := by
  rw [isZero, beq_iff_eq]
  exact BitVec.toNat_eq

/-- A conditional branch once its operand resolves: the check of rule R180 stands before the test. -/
theorem condBranch_index (takenOnZero : Bool) (t : RegIndex) (imm : Int) (s : State) :
    condBranch takenOnZero t imm s =
      withImm Config.immCB imm (.next (if isZero (s.x t) = takenOnZero then s.jump imm else s.advance)) :=
  withReg_index t _

/-- Either way of the test sets the `pc` and nothing else. -/
theorem branchResult_jump_or_advance (taken : Prop) [Decidable taken] (imm : Int) (s : State) :
    BranchResult (if taken then BitVec.ofInt 64 (s.pc.toNat + 4 * imm) else s.pc + 4) s
      (if taken then s.jump imm else s.advance) := by
  split
  · rw [State.jump_eq_setPc]
    exact branchResult_setPc _ s
  · exact branchResult_setPc _ s

theorem condBranch_result (takenOnZero : Bool) (t : RegIndex) {imm : Int} (h0 : -262144 ≤ imm) (h1 : imm ≤ 262143)
    (s : State) : ∃ u, condBranch takenOnZero t imm s = .next u ∧
      BranchResult (if isZero (s.x t) = takenOnZero then BitVec.ofInt 64 (s.pc.toNat + 4 * imm) else s.pc + 4) s u := by
  rw [condBranch_index, withImm_in ((contains_iff Config.immCB imm).mpr ⟨h0, h1⟩)]
  exact ⟨_, rfl, branchResult_jump_or_advance _ imm s⟩

theorem condBranch_outside (takenOnZero : Bool) (t : RegIndex) {imm : Int} (h : imm < -262144 ∨ 262143 < imm)
    (s : State) : condBranch takenOnZero t imm s = .fault (.invalidImmediate imm) := by
  rw [condBranch_index]
  exact withImm_outside (range := Config.immCB) h _

/-- Settles O10: CBZ is the class taken where the zero test succeeds, and a word of its row decodes to its fields. -/
theorem cbzTakenExactlyOnZero : Obligations.CbzTakenExactlyOnZero := by
  refine ⟨fun s t imm h0 h1 => ?_, fun s t imm h => condBranch_outside true t h s,
    fun w hw => decode_of_isRowOf (op := .cbz) (Opcode.isRowOf_iff.mpr hw)⟩
  simp only [← isZero_iff]
  exact condBranch_result true t h0 h1 s

/-- Settles O11: CBNZ is the class taken where the zero test fails, and a word of its row decodes to its fields. -/
theorem cbnzTakenExactlyOnNonzero : Obligations.CbnzTakenExactlyOnNonzero := by
  refine ⟨fun s t imm h0 h1 => ?_, fun s t imm h => condBranch_outside false t h s,
    fun w hw => decode_of_isRowOf (op := .cbnz) (Opcode.isRowOf_iff.mpr hw)⟩
  rw [← ite_not]
  simp only [← isZero_iff, Bool.not_eq_true]
  exact condBranch_result false t h0 h1 s

end Sys2Proof.Machine
end

section
/-! Proofs of the family 70_reset_and_hazards: when a run ends successfully (70_reset_and_hazards.md rule R246), on the
facts about one step of 10_state and of 20_memory. -/

namespace Sys2Proof.Machine

/-! ### One call of the engine -/

/-- A step that goes on is reported as such, unless it stood at the clean halt and changed nothing. -/
theorem stepCall_of_next {s t : State} (h : step s = .next t) :
    (s.pc.toNat = s.progEnd ∧ t = s) ∨ stepCall s = .stepped t := by
  by_cases hend : s.pc.toNat = s.progEnd
  · rw [step_of_end hend] at h
    cases h
    exact .inl ⟨hend, rfl⟩
  · rw [stepCall, if_neg (mt s.cleanHalt_iff.mp hend), h]
    exact .inr rfl

/-- Everything a call can report, with its condition. -/
theorem stepCall_cases (s : State) :
    (s.pc.toNat = s.progEnd ∧ stepCall s = .halted s) ∨
    (∃ t, step s = .next t ∧ stepCall s = .stepped t) ∨
    (∃ f, step s = .fault f ∧ stepCall s = .faulted f s) ∨
    ∃ r, step s = .refused r ∧ stepCall s = .refused r s := by
  by_cases hend : s.pc.toNat = s.progEnd
  · exact .inl ⟨hend, stepCall_of_end hend⟩
  · rw [stepCall, if_neg (mt s.cleanHalt_iff.mp hend)]
    cases step s <;> simp

/-! ### A run that is over -/

/-- A run that stands at the program's end is over at once, whatever the number of steps. -/
theorem run_of_end {s : State} (h : s.pc.toNat = s.progEnd) : ∀ fuel, run fuel s = .halted s
  | 0 => if_pos (s.cleanHalt_iff.mpr h)
  | _ + 1 => by rw [run, stepCall_of_end h]

theorem run_zero_of_ne_end {s : State} (h : s.pc.toNat ≠ s.progEnd) : run 0 s = .goingOn s :=
  if_neg (mt s.cleanHalt_iff.mp h)

theorem run_succ_of_stepped {s t : State} (h : stepCall s = .stepped t) (fuel : Nat) :
    run (fuel + 1) s = run fuel t := by
  rw [run, h]

/-- A report that the run is over stands, however many more steps the run is followed for. -/
theorem run_of_le {m n : Nat} {s : State} (hmn : m ≤ n) (hm : ∀ u, run m s ≠ .goingOn u) : run n s = run m s := by
  induction m generalizing n s with
  | zero =>
    have hend : s.pc.toNat = s.progEnd := by
      by_contra hne
      exact hm s (run_zero_of_ne_end hne)
    rw [run_of_end hend, run_of_end hend]
  | succ m ih =>
    obtain ⟨n, rfl⟩ := Nat.exists_eq_add_one.mpr (Nat.zero_lt_of_lt hmn)
    obtain ⟨-, hc⟩ | ⟨t, -, hc⟩ | ⟨f, -, hc⟩ | ⟨r, -, hc⟩ := stepCall_cases s
    · simp only [run, hc]
    · rw [run_succ_of_stepped hc] at hm ⊢
      rw [run_succ_of_stepped hc]
      exact ih (Nat.le_of_succ_le_succ hmn) hm
    · simp only [run, hc]
    · simp only [run, hc]

/-- A run is over in one way only. -/
theorem run_eq_of_ended {m n : Nat} {s : State} (hm : ∀ u, run m s ≠ .goingOn u) (hn : ∀ u, run n s ≠ .goingOn u) :
    run m s = run n s := by
  obtain h | h := Nat.le_total m n
  · exact (run_of_le h hm).symm
  · exact run_of_le h hn

/-! ### A run that ends successfully -/

theorem reaches_of_run_halted {fuel : Nat} {s t : State} (h : run fuel s = .halted t) :
    Reaches s t ∧ t.pc.toNat = t.progEnd := by
  induction fuel generalizing s with
  | zero =>
    by_cases hend : s.pc.toNat = s.progEnd
    · rw [run_of_end hend] at h
      cases h
      exact ⟨.refl _, hend⟩
    · rw [run_zero_of_ne_end hend] at h
      cases h
  | succ fuel ih =>
    obtain ⟨hend, hc⟩ | ⟨u, hstep, hc⟩ | ⟨f, -, hc⟩ | ⟨r, -, hc⟩ := stepCall_cases s
    · rw [run_of_end hend] at h
      cases h
      exact ⟨.refl _, hend⟩
    · rw [run_succ_of_stepped hc] at h
      obtain ⟨hr, hend⟩ := ih h
      exact ⟨.step hstep hr, hend⟩
    · simp [run, hc] at h
    · simp [run, hc] at h

theorem completesIn_of_end {s : State} (h : s.pc.toNat = s.progEnd) : CompletesIn s s := ⟨0, run_of_end h 0⟩

theorem completesIn_of_step {s t u : State} (h : step s = .next t) (ht : CompletesIn t u) : CompletesIn s u := by
  obtain ⟨-, rfl⟩ | hc := stepCall_of_next h
  · exact ht
  · obtain ⟨fuel, hrun⟩ := ht
    exact ⟨fuel + 1, (run_succ_of_stepped hc fuel).trans hrun⟩

theorem completesIn_iff {s t : State} : CompletesIn s t ↔ Reaches s t ∧ t.pc.toNat = t.progEnd := by
  refine ⟨fun ⟨_, h⟩ => reaches_of_run_halted h, ?_⟩
  rintro ⟨hr, hend⟩
  induction hr with
  | refl s => exact completesIn_of_end hend
  | step first _ ih => exact completesIn_of_step first (ih hend)

/-- Settles O34: the steps of a run are those that reach its final state, and a run that is over is over in one way. -/
theorem runCompletesExactlyAtProgramEnd : Obligations.RunCompletesExactlyAtProgramEnd := by
  intro s t
  refine ⟨t.progEnd_eq ▸ completesIn_iff, fun ⟨fuel, h⟩ => ?_⟩
  have hgoing : ∀ u, run fuel s ≠ .goingOn u := by simp [h]
  refine ⟨fun n f u hf => ?_, fuel, hgoing⟩
  have hsame := run_eq_of_ended hgoing (by simp [hf] : ∀ u, run n s ≠ .goingOn u)
  simp [h, hf] at hsame

end Sys2Proof.Machine
end

section
/-! Proofs of the family other, instruction words: the encoder against the format tables, and the decoder against the
encoder (30_encoding.md rules R92 to R106), on the facts about table rows of 40_register_alu. -/

/-! ### Fields and rows -/

namespace Sys2Proof

/-- A field lies in its own place of the word. -/
theorem extractLsb'_placeField_same {k lo : Nat} (v : BitVec k) (h : lo + k ≤ 32) :
    (placeField v lo).extractLsb' lo k = v := by
  apply BitVec.eq_of_getLsbD_eq
  intro j hj
  rw [BitVec.getLsbD_extractLsb', Laws.RowOf.getLsbD_placeField _ _ _ (by omega)]
  simp [hj]

/-- A field leaves the place of every other field zero. -/
theorem extractLsb'_placeField_disjoint {k lo k' lo' : Nat} (v : BitVec k) (h : lo + k ≤ lo' ∨ lo' + k' ≤ lo)
    (h' : lo' + k' ≤ 32) : (placeField v lo).extractLsb' lo' k' = 0 := by
  apply BitVec.eq_of_getLsbD_eq
  intro j hj
  rw [BitVec.getLsbD_extractLsb', Laws.RowOf.getLsbD_placeField _ _ _ (by omega)]
  by_cases hlo : lo ≤ lo' + j
  · simp [hj, BitVec.getLsbD_of_ge v (lo' + j - lo) (by omega)]
  · simp [hlo]

/-- A field read from a word and put back is the word under the field's mask. -/
theorem placeField_extractLsb' (w : InsnWord) (lo k : Nat) :
    placeField (w.extractLsb' lo k) lo = w &&& placeField (BitVec.allOnes k) lo := by
  apply BitVec.eq_of_getLsbD_eq
  intro j hj
  rw [BitVec.getLsbD_and, Laws.RowOf.getLsbD_placeField _ _ _ hj, Laws.RowOf.getLsbD_placeField _ _ _ hj,
    BitVec.getLsbD_extractLsb', BitVec.getLsbD_allOnes]
  by_cases hlo : lo ≤ j
  · simp [hlo, Bool.and_comm]
  · simp [hlo]

/-- Two adjacent fields are one field, the more significant one first. -/
theorem placeField_append {a b : Nat} (x : BitVec a) (y : BitVec b) (lo : Nat) :
    placeField (x ++ y) lo = placeField x (lo + b) ||| placeField y lo := by
  apply BitVec.eq_of_getLsbD_eq
  intro j hj
  rw [BitVec.getLsbD_or, Laws.RowOf.getLsbD_placeField _ _ _ hj, Laws.RowOf.getLsbD_placeField _ _ _ hj,
    Laws.RowOf.getLsbD_placeField _ _ _ hj, BitVec.getLsbD_append, ← Nat.sub_sub]
  by_cases hb : lo + b ≤ j
  · simp [hb, show lo ≤ j by omega, show ¬ j - lo < b by omega, BitVec.getLsbD_of_ge y (j - lo) (by omega)]
  · by_cases hlo : lo ≤ j
    · simp [hb, hlo, show j - lo < b by omega]
    · simp [hb, hlo]

@[simp] theorem placeField_zero (k lo : Nat) : placeField 0#k lo = 0#32 := by simp [placeField]

theorem placeField_word (w : InsnWord) : placeField w 0 = w := by simp [placeField]

/-- A decoded word is a word of a row, and the instruction is that row's reading of it. -/
theorem decode_ok {w : InsnWord} {i : Instr} (h : decode w = .ok i) :
    ∃ op : Opcode, op.isRowOf w = true ∧ i = operandsOf op w := by
  unfold decode at h
  split at h <;> cases h
  next op hop => exact ⟨op, by simpa using List.find?_some hop, rfl⟩

/-- The decoder rejects a word under its name, and only where it matches no row. -/
theorem decode_error {w : InsnWord} {e : Malformed} (h : decode w = .error e) : e = .word w := by
  unfold decode at h
  split at h <;> cases h
  rfl

theorem decode_eq_error {w : InsnWord} (h : ∀ i, decode w ≠ .ok i) : decode w = .error (.word w) := by
  cases hd : decode w with
  | ok i => exact absurd hd (h i)
  | error e => rw [decode_error hd]

theorem decode_of_no_row {w : InsnWord} (h : ∀ op : Opcode, op.isRowOf w = false) : decode w = .error (.word w) := by
  cases hd : decode w with
  | ok i =>
    obtain ⟨op, hop, -⟩ := decode_ok hd
    simp [h op] at hop
  | error e => rw [decode_error hd]

theorem opcode_operandsOf (op : Opcode) (w : InsnWord) : (operandsOf op w).opcode = op := by cases op <;> rfl

/-- Settles O53: no word is of two rows, and the decoder reads a word of a row as that row says. -/
theorem opcodeRowsNeverOverlap : Obligations.OpcodeRowsNeverOverlap :=
  ⟨fun _ _ _ => Opcode.eq_of_isRowOf, fun w p hp => ⟨_, decode_of_isRowOf hp, opcode_operandsOf p w⟩⟩

/-- Any field of a word of a row agrees with the row's pattern under the row's mask. -/
theorem Opcode.extractLsb'_of_isRowOf {op : Opcode} {w : InsnWord} (h : op.isRowOf w = true) (lo k : Nat) :
    w.extractLsb' lo k &&& op.mask.extractLsb' lo k = op.pattern.extractLsb' lo k := by
  rw [← BitVec.extractLsb'_and, Opcode.isRowOf_iff.mp h]

/-- A word is malformed if the one row that its opcode bits `c` lead to wants zeros in the field at `lo`, and the word has
others. -/
theorem decode_of_mbz_ne_zero {w : InsnWord} {c : BitVec 11} {lo k : Nat} (row : Opcode)
    (hrow : ∀ op ∈ Opcode.all, c &&& op.mask.extractLsb' 21 11 = op.pattern.extractLsb' 21 11 → op = row)
    (hmask : row.mask.extractLsb' lo k = BitVec.allOnes k) (hpattern : row.pattern.extractLsb' lo k = 0)
    (hc : w.extractLsb' 21 11 = c) (hw : w.extractLsb' lo k ≠ 0) : decode w = .error (.word w) := by
  refine decode_of_no_row fun op => Bool.eq_false_iff.mpr fun hop => hw ?_
  obtain rfl : op = row := hrow op op.mem_all (hc ▸ Opcode.extractLsb'_of_isRowOf hop 21 11)
  simpa [hmask, hpattern] using Opcode.extractLsb'_of_isRowOf hop lo k

/-- Settles O54: each opcode of the last two clauses leads to one row, whose mask covers the must-be-zero field. -/
theorem otherWordsAreMalformed : Obligations.OtherWordsAreMalformed := by
  refine ⟨fun w => decode_of_no_row, fun w hc hw => ?_, fun w hc hw => ?_⟩
  · rcases hc with hc | hc
    · exact decode_of_mbz_ne_zero .add (by decide) (by decide) (by decide) hc hw
    · exact decode_of_mbz_ne_zero .sub (by decide) (by decide) (by decide) hc hw
  · rcases hc with hc | hc
    · exact decode_of_mbz_ne_zero .ldur (by decide) (by decide) (by decide) hc hw
    · exact decode_of_mbz_ne_zero .stur (by decide) (by decide) (by decide) hc hw

/-! ### The encoder and the format tables -/

/-- Settles O55: the concatenation of a format is its fields put in their places; the opcode bits are the
pattern. -/
theorem encodeConcatenatesFormatFields : Obligations.EncodeConcatenatesFormatFields := by
  refine ⟨fun d n m => ⟨?_, ?_⟩, fun d n imm _ _ => ⟨?_, ?_⟩, fun t n imm _ _ => ⟨?_, ?_⟩, fun imm _ _ => ?_,
    fun t imm _ _ => ⟨?_, ?_⟩⟩
  all_goals
    refine Eq.trans ?_ (placeField_word _)
    simp only [placeField_append]
    simp only [placeField_zero, BitVec.or_zero, encode, Instr.opcode, Nat.zero_add, Nat.reduceAdd]
    rfl

/-! ### The decoder inverts the encoder -/

/-- Every word of an instruction is a word of its own row. -/
theorem isRowOf_encode (i : Instr) : i.opcode.isRowOf (encode i) = true := by
  cases i with
  | add d n m => exact Laws.RowOf.add d n m
  | sub d n m => exact Laws.RowOf.sub d n m
  | addi d n imm => exact Laws.RowOf.addi d n imm
  | subi d n imm => exact Laws.RowOf.subi d n imm
  | ldur t n imm => exact Laws.RowOf.ldur t n imm
  | stur t n imm => exact Laws.RowOf.stur t n imm
  | b imm => exact Laws.RowOf.b imm
  | cbz t imm => exact Laws.RowOf.cbz t imm
  | cbnz t imm => exact Laws.RowOf.cbnz t imm

theorem wellFormed_iff {i : Instr} : i.wellFormed = true ↔ i.regsOk = true ∧ i.immOk = true := Bool.and_eq_true_iff

/-- The register operands of a well-formed instruction, in the form `omega` reads. -/
theorem regsOk_iff {i : Instr} : i.regsOk = true ↔ ∀ r ∈ i.regs, r < 32 := by
  simp [Instr.regsOk, List.all_eq_true]

/-- A register number survives its 5-bit field. -/
theorem toNat_ofNat_register {r : Nat} (h : r < 32) : (BitVec.ofNat 5 r).toNat = r := by
  rw [BitVec.toNat_ofNat, Nat.mod_eq_of_lt h]

/-- The unsigned immediate survives its field. -/
theorem toNat_ofInt_immI {k : Int} (h : Config.immI.contains k = true) : ((BitVec.ofInt 12 k).toNat : Int) = k := by
  obtain ⟨h0, h1⟩ : 0 ≤ k ∧ k ≤ 4095 := (Machine.contains_iff _ _).mp h
  rw [BitVec.toNat_ofInt]
  omega

theorem toInt_ofInt_immD {k : Int} (h : Config.immD.contains k = true) : (BitVec.ofInt 9 k).toInt = k := by
  obtain ⟨h0, h1⟩ : -256 ≤ k ∧ k ≤ 255 := (Machine.contains_iff _ _).mp h
  exact BitVec.toInt_ofInt_eq_self (by decide) h0 (Int.lt_of_le_sub_one h1)

theorem toInt_ofInt_immB {k : Int} (h : Config.immB.contains k = true) : (BitVec.ofInt 26 k).toInt = k := by
  obtain ⟨h0, h1⟩ : -33554432 ≤ k ∧ k ≤ 33554431 := (Machine.contains_iff _ _).mp h
  exact BitVec.toInt_ofInt_eq_self (by decide) h0 (Int.lt_of_le_sub_one h1)

theorem toInt_ofInt_immCB {k : Int} (h : Config.immCB.contains k = true) : (BitVec.ofInt 19 k).toInt = k := by
  obtain ⟨h0, h1⟩ : -262144 ≤ k ∧ k ≤ 262143 := (Machine.contains_iff _ _).mp h
  exact BitVec.toInt_ofInt_eq_self (by decide) h0 (Int.lt_of_le_sub_one h1)

/-- Reading the fields of an encoded well-formed instruction: of the pattern and the fields that are or-ed, all but the
field read are zero in its place. -/
theorem operandsOf_encode {i : Instr} (hi : i.wellFormed = true) : operandsOf i.opcode (encode i) = i := by
  obtain ⟨hregs, himm⟩ := wellFormed_iff.mp hi
  rw [regsOk_iff] at hregs
  cases i
  all_goals
    simp only [Instr.regs, List.forall_mem_cons] at hregs
    simp only [Instr.immOk, Instr.imm?, Instr.opcode, Opcode.cls, OpClass.immRange] at himm
    simp only [operandsOf, Instr.opcode, encode, fieldRd, fieldRn, fieldRm, fieldImm12, fieldImm9, fieldImm26,
      fieldImm19, BitVec.extractLsb'_or]
    simp (disch := decide) only [extractLsb'_placeField_same, extractLsb'_placeField_disjoint]
    simp only [Opcode.pattern, BitVec.reduceExtractLsb', BitVec.ofNat_eq_ofNat, BitVec.zero_or, BitVec.or_zero,
      toNat_ofNat_register, hregs, toNat_ofInt_immI, toInt_ofInt_immD, toInt_ofInt_immB, toInt_ofInt_immCB, himm]

theorem decode_encode {i : Instr} (hi : i.wellFormed = true) : decode (encode i) = .ok i := by
  rw [decode_of_isRowOf (isRowOf_encode i), operandsOf_encode hi]

/-- Settles O51: the word of an instruction is one of its row, and its fields read back. -/
theorem decodeInvertsEncode : Obligations.DecodeInvertsEncode := fun _ => decode_encode

/-! ### The encoder inverts the decoder -/

theorem fieldRd_lt (w : InsnWord) : fieldRd w < 32 := BitVec.isLt _
theorem fieldRn_lt (w : InsnWord) : fieldRn w < 32 := BitVec.isLt _
theorem fieldRm_lt (w : InsnWord) : fieldRm w < 32 := BitVec.isLt _

theorem immI_contains_fieldImm12 (w : InsnWord) : Config.immI.contains (fieldImm12 w) = true := by
  have h : (w.extractLsb' 10 12).toNat < 4096 := BitVec.isLt _
  refine (Machine.contains_iff _ _).mpr ⟨Int.natCast_nonneg _, ?_⟩
  show ((w.extractLsb' 10 12).toNat : Int) ≤ 4095
  omega

/-- A two's-complement field of `n + 1` bits lies in the range that these bits span. -/
theorem contains_toInt {n : Nat} (v : BitVec (n + 1)) (range : ImmRange) (hlo : range.lo = -2 ^ n)
    (hhi : range.hi = 2 ^ n - 1) : range.contains v.toInt = true :=
  (Machine.contains_iff _ _).mpr
    ⟨hlo ▸ BitVec.le_toInt v, hhi ▸ Int.le_sub_one_of_lt (BitVec.toInt_lt (x := v))⟩

/-- What a row reads from a word is well-formed: the fields are no wider than the ranges. -/
theorem wellFormed_operandsOf (op : Opcode) (w : InsnWord) : (operandsOf op w).wellFormed = true := by
  refine wellFormed_iff.mpr ⟨regsOk_iff.mpr ?_, ?_⟩
  · cases op <;> simp [operandsOf, Instr.regs, fieldRd_lt, fieldRn_lt, fieldRm_lt]
  · cases op with
    | add => rfl
    | sub => rfl
    | addi => exact immI_contains_fieldImm12 w
    | subi => exact immI_contains_fieldImm12 w
    | ldur => exact contains_toInt (n := 8) _ Config.immD rfl rfl
    | stur => exact contains_toInt (n := 8) _ Config.immD rfl rfl
    | b => exact contains_toInt (n := 25) _ Config.immB rfl rfl
    | cbz => exact contains_toInt (n := 18) _ Config.immCB rfl rfl
    | cbnz => exact contains_toInt (n := 18) _ Config.immCB rfl rfl

/-- Encoding what a row reads from one of its words gives back the word under the row's mask and under the masks of the
fields, and together these are all 32 bits. -/
theorem encode_operandsOf {op : Opcode} {w : InsnWord} (h : op.isRowOf w = true) : encode (operandsOf op w) = w := by
  rw [Opcode.isRowOf_iff] at h
  have whole {m : InsnWord} (hm : m = BitVec.allOnes 32) : w &&& m = w := by rw [hm, BitVec.and_allOnes]
  cases op
  all_goals
    simp only [operandsOf, encode, Instr.opcode, ← h, fieldRd, fieldRn, fieldRm, fieldImm12, fieldImm9, fieldImm26,
      fieldImm19, BitVec.ofNat_toNat, BitVec.setWidth_eq, BitVec.ofInt_natCast, BitVec.ofInt_toInt,
      placeField_extractLsb', ← BitVec.and_or_distrib_left]
    exact whole (by decide)

theorem wellFormed_of_decode {w : InsnWord} {i : Instr} (h : decode w = .ok i) : i.wellFormed = true := by
  obtain ⟨op, -, rfl⟩ := decode_ok h
  exact wellFormed_operandsOf op w

/-- Settles O52: a word that decodes is one of a row, and the row's reading of it loses no bit. -/
theorem encodeInvertsDecode : Obligations.EncodeInvertsDecode := by
  intro w i h
  obtain ⟨op, hop, rfl⟩ := decode_ok h
  exact ⟨wellFormed_operandsOf op w, encode_operandsOf hop⟩

/-- Settles O56: each of the nine written-out words, decoded. -/
theorem writtenOutWordsDecode : Obligations.WrittenOutWordsDecode := by
  unfold Obligations.WrittenOutWordsDecode
  decide

end Sys2Proof
end

section
/-! Proofs of the family other, instructions: what stops an instruction, the registers it reads and writes, its new
program counter, and its address (10_state.md rules R24, R29; 42_load_store.md rule R161; 60_exceptions.md rule
R210). -/

namespace Sys2Proof.Machine

/-! ### Operands that resolve -/

/-- The instructions whose register operands all resolve, with the registers they resolve to. -/
inductive Resolved : Instr → Prop where
  | add (d n m : RegIndex) : Resolved (.add d n m)
  | sub (d n m : RegIndex) : Resolved (.sub d n m)
  | addi (d n : RegIndex) (imm : Int) : Resolved (.addi d n imm)
  | subi (d n : RegIndex) (imm : Int) : Resolved (.subi d n imm)
  | ldur (t n : RegIndex) (imm : Int) : Resolved (.ldur t n imm)
  | stur (t n : RegIndex) (imm : Int) : Resolved (.stur t n imm)
  | b (imm : Int) : Resolved (.b imm)
  | cbz (t : RegIndex) (imm : Int) : Resolved (.cbz t imm)
  | cbnz (t : RegIndex) (imm : Int) : Resolved (.cbnz t imm)

theorem resolved_of_regsOk {i : Instr} (h : i.regsOk = true) : Resolved i := by
  rw [regsOk_iff] at h
  cases i with
  | add d n m =>
    exact .add ⟨d, h d (by simp [Instr.regs])⟩ ⟨n, h n (by simp [Instr.regs])⟩ ⟨m, h m (by simp [Instr.regs])⟩
  | sub d n m =>
    exact .sub ⟨d, h d (by simp [Instr.regs])⟩ ⟨n, h n (by simp [Instr.regs])⟩ ⟨m, h m (by simp [Instr.regs])⟩
  | addi d n imm => exact .addi ⟨d, h d (by simp [Instr.regs])⟩ ⟨n, h n (by simp [Instr.regs])⟩ imm
  | subi d n imm => exact .subi ⟨d, h d (by simp [Instr.regs])⟩ ⟨n, h n (by simp [Instr.regs])⟩ imm
  | ldur t n imm => exact .ldur ⟨t, h t (by simp [Instr.regs])⟩ ⟨n, h n (by simp [Instr.regs])⟩ imm
  | stur t n imm => exact .stur ⟨t, h t (by simp [Instr.regs])⟩ ⟨n, h n (by simp [Instr.regs])⟩ imm
  | b imm => exact .b imm
  | cbz t imm => exact .cbz ⟨t, h t (by simp [Instr.regs])⟩ imm
  | cbnz t imm => exact .cbnz ⟨t, h t (by simp [Instr.regs])⟩ imm

/-- The first register operand, in source order, that does not resolve. -/
def firstBadReg (rs : List Nat) : Option Nat := rs.find? fun r => decide (32 ≤ r)

theorem firstBadReg_some_or_regsOk (i : Instr) : (∃ r, firstBadReg i.regs = some r) ∨ i.regsOk = true := by
  cases h : firstBadReg i.regs with
  | some r => exact .inl ⟨r, rfl⟩
  | none =>
    refine .inr (regsOk_iff.mpr fun r hr => ?_)
    simpa using List.find?_eq_none.mp h r hr

/-- Resolution goes on to the operands behind the first and stops at the first that does not resolve. -/
theorem withReg_of_firstBadReg {r q : Nat} {rs : List Nat} {body : RegIndex → Host.Outcome State Fault Refusal}
    (h : firstBadReg (r :: rs) = some q)
    (hrest : firstBadReg rs = some q → ∀ i, body i = .fault (.invalidRegister ('X' :: Asm.digits q))) :
    withReg r body = .fault (.invalidRegister ('X' :: Asm.digits q)) := by
  by_cases hr : 32 ≤ r
  · obtain rfl : r = q := by simpa [firstBadReg, hr] using h
    rw [withReg_ge hr, raise]
  · rw [withReg_lt (by omega)]
    exact hrest (by simpa [firstBadReg, List.find?_cons, hr] using h) _

/-- An instruction stops at its first register operand that does not resolve, whatever its immediate. -/
theorem exec_of_firstBadReg {i : Instr} {q : Nat} (h : firstBadReg i.regs = some q) (s : State) :
    exec i s = .fault (.invalidRegister ('X' :: Asm.digits q)) := by
  cases i with
  | add d n m =>
    unfold exec execAdd registerAlu
    exact withReg_of_firstBadReg h fun h _ => withReg_of_firstBadReg h fun h _ => withReg_of_firstBadReg h nofun
  | sub d n m =>
    unfold exec execSub registerAlu
    exact withReg_of_firstBadReg h fun h _ => withReg_of_firstBadReg h fun h _ => withReg_of_firstBadReg h nofun
  | addi d n imm =>
    unfold exec execAddi immediateAlu
    exact withReg_of_firstBadReg h fun h _ => withReg_of_firstBadReg h nofun
  | subi d n imm =>
    unfold exec execSubi immediateAlu
    exact withReg_of_firstBadReg h fun h _ => withReg_of_firstBadReg h nofun
  | ldur t n imm =>
    unfold exec execLdur
    exact withReg_of_firstBadReg h fun h _ => withReg_of_firstBadReg h nofun
  | stur t n imm =>
    unfold exec execStur
    exact withReg_of_firstBadReg h fun h _ => withReg_of_firstBadReg h nofun
  | b imm => cases h
  | cbz t imm =>
    unfold exec execCbz condBranch
    exact withReg_of_firstBadReg h nofun
  | cbnz t imm =>
    unfold exec execCbnz condBranch
    exact withReg_of_firstBadReg h nofun

/-- The operands of an instruction that goes on all resolve. -/
theorem resolved_of_next {i : Instr} {s t : State} (h : exec i s = .next t) : Resolved i := by
  obtain ⟨q, hq⟩ | hok := firstBadReg_some_or_regsOk i
  · rw [exec_of_firstBadReg hq] at h
    cases h
  · exact resolved_of_regsOk hok

/-- Settles O14: the operand named is the first that does not resolve. -/
theorem unresolvableRegisterStops : Obligations.UnresolvableRegisterStops := by
  intro i s hbad
  obtain ⟨q, hq⟩ | hok := firstBadReg_some_or_regsOk i
  · exact ⟨q, List.mem_of_find?_eq_some hq, by simpa using List.find?_some hq, exec_of_firstBadReg hq s⟩
  · rw [hok] at hbad
    cases hbad

/-! ### Faults of an instruction whose operands resolve -/

/-- A fault behind the re-validation of an immediate: the immediate's own, or that of what follows. -/
theorem withImm_fault {range : ImmRange} {imm : Int} {body : Host.Outcome State Fault Refusal} {f : Fault}
    (h : withImm range imm body = .fault f) :
    (range.contains imm = false ∧ f = .invalidImmediate imm) ∨ (range.contains imm = true ∧ body = .fault f) := by
  cases hc : range.contains imm with
  | true => exact .inr ⟨rfl, by rwa [withImm_in hc] at h⟩
  | false =>
    rw [withImm_out hc, raise] at h
    cases h
    exact .inl ⟨rfl, rfl⟩

/-- The fault of a checked double-word access is that of the check. -/
theorem afterAccess_fault {α : Type} {done : α → State} {access : Except Fault α} {f : Fault}
    (h : afterAccess done access = .fault f) : access = .error f := by
  cases access with
  | error g => cases h; rfl
  | ok a => cases h

theorem memRead_error_check {m : Memory} {addr : Int} {f : Fault} (h : memRead m addr = .error f) :
    checkDouble addr = .error f := by
  unfold memRead at h
  split at h <;> cases h
  assumption

theorem memWrite_error_check {m : Memory} {addr : Int} {v : Word} {f : Fault} (h : memWrite m addr v = .error f) :
    checkDouble addr = .error f := by
  unfold memWrite at h
  split at h <;> cases h
  assumption

/-- How an instruction whose operands resolve can fault: on its immediate, or, its immediate being in range, on its
double-word address. -/
inductive LateFault (i : Instr) (s : State) : Fault → Prop where
  | immediate (k : Int) (hk : i.imm? = some k) (hout : i.immOk = false) : LateFault i s (.invalidImmediate k)
  | access (t n : RegIndex) (imm : Int) (f : Fault) (hi : i = .ldur t n imm ∨ i = .stur t n imm) (hin : i.immOk = true)
      (hf : checkDouble (effectiveAddress s n imm) = .error f) : LateFault i s f

/-- An instruction that does nothing after the re-validation of its immediate but go on. -/
theorem lateFault_of_withImm {i : Instr} {s t : State} {range : ImmRange} {imm : Int} {f : Fault}
    (hk : i.imm? = some imm) (hok : i.immOk = range.contains imm) (h : withImm range imm (.next t) = .fault f) :
    LateFault i s f := by
  obtain ⟨hout, rfl⟩ | ⟨-, hbody⟩ := withImm_fault h
  · exact .immediate imm hk (hok.trans hout)
  · cases hbody

/-- The inversion lemma of a fault of `exec`. -/
theorem exec_fault {i : Instr} {s : State} {f : Fault} (hi : Resolved i) (h : exec i s = .fault f) :
    LateFault i s f := by
  cases hi with
  | add d n m =>
    rw [exec, execAdd, registerAlu_index] at h
    cases h
  | sub d n m =>
    rw [exec, execSub, registerAlu_index] at h
    cases h
  | addi d n imm => exact lateFault_of_withImm rfl rfl ((immediateAlu_index ..).symm.trans h)
  | subi d n imm => exact lateFault_of_withImm rfl rfl ((immediateAlu_index ..).symm.trans h)
  | ldur t n imm =>
    rw [exec_ldur_index] at h
    obtain ⟨hout, rfl⟩ | ⟨hin, hbody⟩ := withImm_fault h
    · exact .immediate imm rfl hout
    · exact .access t n imm f (.inl rfl) hin (memRead_error_check (afterAccess_fault hbody))
  | stur t n imm =>
    rw [exec_stur_index] at h
    obtain ⟨hout, rfl⟩ | ⟨hin, hbody⟩ := withImm_fault h
    · exact .immediate imm rfl hout
    · exact .access t n imm f (.inr rfl) hin (memWrite_error_check (afterAccess_fault hbody))
  | b imm => exact lateFault_of_withImm rfl rfl h
  | cbz t imm => exact lateFault_of_withImm rfl rfl ((condBranch_index ..).symm.trans h)
  | cbnz t imm => exact lateFault_of_withImm rfl rfl ((condBranch_index ..).symm.trans h)

/-- Settles O13: operand resolution comes first, then the immediate, then the two checks of the address. -/
theorem instructionFaultsInOneOrder : Obligations.InstructionFaultsInOneOrder := by
  intro i s f h
  obtain ⟨q, hq⟩ | hregs := firstBadReg_some_or_regsOk i
  · rw [exec_of_firstBadReg hq] at h
    cases h
    exact .inl ⟨q, hq, rfl⟩
  · cases exec_fault (resolved_of_regsOk hregs) h with
    | immediate k hk hout => exact .inr (.inl ⟨hregs, k, hk, hout, rfl⟩)
    | access t n imm f hi hin hf =>
      have hwf := wellFormed_iff.mpr ⟨hregs, hin⟩
      obtain ⟨ha, hc⟩ | ⟨ha, hout, hc⟩ | ⟨-, -, -, hc⟩ := checkDouble_cases (effectiveAddress s n imm)
      · exact .inr (.inr (.inl ⟨hwf, t, n, imm, hi, ha, by simpa [hc] using hf.symm⟩))
      · exact .inr (.inr (.inr ⟨hwf, t, n, imm, hi, ha, hout, by simpa [hc] using hf.symm⟩))
      · simp [hc] at hf

/-- A well-formed instruction faults on its double-word address only. -/
theorem exec_fault_of_wellFormed {i : Instr} {s : State} {f : Fault} (hi : i.wellFormed = true)
    (h : exec i s = .fault f) : ∃ addr, f = .alignmentError addr ∨ f = .boundsError addr := by
  obtain ⟨hregs, himm⟩ := wellFormed_iff.mp hi
  cases exec_fault (resolved_of_regsOk hregs) h with
  | immediate k hk hout =>
    rw [himm] at hout
    cases hout
  | access t n imm f _ _ hf =>
    exact ⟨_, memRead_error (memRead_of_check_error hf [])⟩

/-- What re-validation adds to an instruction that raises no `InvalidImmediate` itself. -/
theorem withImm_eq_invalidImmediate_iff {range : ImmRange} {imm k : Int} {body : Host.Outcome State Fault Refusal}
    (hbody : ∀ k, body ≠ .fault (.invalidImmediate k)) :
    withImm range imm body = .fault (.invalidImmediate k) ↔ imm = k ∧ (k < range.lo ∨ range.hi < k) := by
  constructor
  · intro h
    obtain ⟨hout, hk⟩ | ⟨-, h⟩ := withImm_fault h
    · cases hk
      have hin : ¬ (range.lo ≤ imm ∧ imm ≤ range.hi) := by simp [← contains_iff, hout]
      exact ⟨rfl, by omega⟩
    · exact absurd h (hbody k)
  · rintro ⟨rfl, hout⟩
    exact withImm_outside hout body

theorem checkDouble_ne_invalidImmediate (addr k : Int) : checkDouble addr ≠ .error (.invalidImmediate k) := by
  obtain ⟨-, h⟩ | ⟨-, -, h⟩ | ⟨-, -, -, h⟩ := checkDouble_cases addr <;> simp [h]

theorem afterAccess_memRead_ne_invalidImmediate {done : Word → State} {m : Memory} {addr : Int} (k : Int) :
    afterAccess done (memRead m addr) ≠ .fault (.invalidImmediate k) :=
  fun h => checkDouble_ne_invalidImmediate addr k (memRead_error_check (afterAccess_fault h))

theorem afterAccess_memWrite_ne_invalidImmediate {done : Memory → State} {m : Memory} {addr : Int} {v : Word}
    (k : Int) : afterAccess done (memWrite m addr v) ≠ .fault (.invalidImmediate k) :=
  fun h => checkDouble_ne_invalidImmediate addr k (memWrite_error_check (afterAccess_fault h))

/-- Settles O12: nothing but the re-validation raises `InvalidImmediate`, and a decoded word is in range. -/
theorem immediateRevalidatedPerClass : Obligations.ImmediateRevalidatedPerClass := by
  refine ⟨fun i s k hregs => ?_, fun w i s k hd h => ?_⟩
  · cases resolved_of_regsOk hregs with
    | add d n m => simp [exec, execAdd, registerAlu_index, Instr.imm?]
    | sub d n m => simp [exec, execSub, registerAlu_index, Instr.imm?]
    | addi d n imm =>
      rw [exec, execAddi, immediateAlu_index, Instr.imm?, Option.some_inj]
      exact withImm_eq_invalidImmediate_iff nofun
    | subi d n imm =>
      rw [exec, execSubi, immediateAlu_index, Instr.imm?, Option.some_inj]
      exact withImm_eq_invalidImmediate_iff nofun
    | ldur t n imm =>
      rw [exec_ldur_index, Instr.imm?, Option.some_inj]
      exact withImm_eq_invalidImmediate_iff afterAccess_memRead_ne_invalidImmediate
    | stur t n imm =>
      rw [exec_stur_index, Instr.imm?, Option.some_inj]
      exact withImm_eq_invalidImmediate_iff afterAccess_memWrite_ne_invalidImmediate
    | b imm =>
      rw [exec, execB, Instr.imm?, Option.some_inj]
      exact withImm_eq_invalidImmediate_iff nofun
    | cbz t imm =>
      rw [exec, execCbz, condBranch_index, Instr.imm?, Option.some_inj]
      exact withImm_eq_invalidImmediate_iff nofun
    | cbnz t imm =>
      rw [exec, execCbnz, condBranch_index, Instr.imm?, Option.some_inj]
      exact withImm_eq_invalidImmediate_iff nofun
  · obtain ⟨addr, hf | hf⟩ := exec_fault_of_wellFormed (wellFormed_of_decode hd) h <;> cases hf

/-! ### The new program counter -/

theorem State.advance_pc_eq (s : State) : s.advance.pc = BitVec.ofInt 64 (s.pc.toNat + 4) := by
  simp [BitVec.ofInt_add]

theorem State.jump_pc_eq (s : State) (imm : Int) : (s.jump imm).pc = BitVec.ofInt 64 (s.pc.toNat + 4 * imm) := by
  rw [State.jump_eq_setPc, State.setPc_pc]

/-- A conditional branch that goes on has jumped or advanced, as its test says. -/
theorem condBranch_next {takenOnZero : Bool} {t : RegIndex} {imm : Int} {s u : State}
    (h : condBranch takenOnZero t imm s = .next u) :
    u = if isZero (s.x t) = takenOnZero then s.jump imm else s.advance := by
  rw [condBranch_index] at h
  obtain ⟨-, hu⟩ := withImm_next h
  cases hu
  rfl

/-- An instruction that writes a register advances. -/
theorem pc_of_wrote {i : Instr} {s t : State} (h : exec i s = .next t) (hi : writeSet i ≠ []) :
    t.pc = BitVec.ofInt 64 (s.pc.toNat + 4) := by
  rw [← State.advance_pc_eq]
  cases exec_effect h with
  | wrote d v hd => simp
  | stored t n imm m hi hm => simp
  | jumped imm hi' => exact absurd hi' hi
  | fell hi' => exact absurd hi' hi

theorem stur_next {t n : RegIndex} {imm : Int} {s u : State} (h : exec (.stur t n imm) s = .next u) :
    ∃ m, memWrite s.mem (effectiveAddress s n imm) (s.x t) = .ok m ∧ u = (s.setMem m).advance := by
  rw [exec_stur_index] at h
  obtain ⟨-, hu⟩ := withImm_next h
  cases hw : memWrite s.mem (effectiveAddress s n imm) (s.x t) with
  | error f => rw [hw] at hu; cases hu
  | ok m => rw [hw] at hu; cases hu; exact ⟨m, rfl, rfl⟩

/-- Settles O15: an instruction that writes a register or memory advances, and a branch jumps or advances. -/
theorem programCounterFollowsTable : Obligations.ProgramCounterFollowsTable := by
  refine ⟨fun i s t h => ?_, fun s t f h => ?_⟩
  · cases resolved_of_next h with
    | add d n m => exact pc_of_wrote h nofun
    | sub d n m => exact pc_of_wrote h nofun
    | addi d n imm => exact pc_of_wrote h nofun
    | subi d n imm => exact pc_of_wrote h nofun
    | ldur r n imm => exact pc_of_wrote h nofun
    | stur r n imm =>
      obtain ⟨m, -, rfl⟩ := stur_next h
      exact (s.setMem m).advance_pc_eq
    | b imm =>
      obtain ⟨-, hu⟩ := withImm_next h
      cases hu
      exact s.jump_pc_eq imm
    | cbz r imm =>
      refine ⟨r.isLt, ?_⟩
      rw [condBranch_next h, ← s.jump_pc_eq, ← s.advance_pc_eq]
      simp [isZero, apply_ite State.pc]
    | cbnz r imm =>
      refine ⟨r.isLt, ?_⟩
      rw [condBranch_next h, ← s.jump_pc_eq, ← s.advance_pc_eq]
      simp [isZero, apply_ite State.pc]
  · obtain ⟨-, hc⟩ | ⟨u, -, hc⟩ | ⟨g, -, hc⟩ | ⟨r, -, hc⟩ := stepCall_cases s <;> rw [hc] at h <;> cases h
    rfl

/-! ### The address -/

/-- Settles O16: the two readings differ by 0 or 2^64, which neither the remainder modulo 8 nor the bounds of memory
see. -/
theorem addressReadingsAgree : Obligations.AddressReadingsAgree := by
  intro s n imm h0 h1
  have hea : wrappedAddress s n imm = BitVec.ofInt 64 ((s.x n).toNat + imm) := by
    simp [wrappedAddress, BitVec.ofInt_add]
  have hlt : (s.x n).toNat < 2 ^ 64 := (s.x n).isLt
  have hwrapped : ((wrappedAddress s n imm).toNat : Int) = ((s.x n).toNat + imm) % 2 ^ 64 := by
    rw [hea, BitVec.toNat_ofInt]
    omega
  have hsigned : effectiveAddress s n imm =
      (if 2 * (s.x n).toNat < 2 ^ 64 then ((s.x n).toNat : Int) else (s.x n).toNat - 2 ^ 64) + imm := by
    rw [effectiveAddress, BitVec.toInt_eq_toNat_cond]
    rfl
  split at hsigned
  all_goals exact ⟨rfl, by omega, by omega, hea, by omega, by omega, by omega⟩

/-! ### The registers read and written -/

/-- The outcomes of an instruction on two states are the same fault, or next states that agree on all but the registers
it does not write, and those are as before. -/
structure SameOutcome (i : Instr) (s t : State) (o o' : Host.Outcome State Fault Refusal) : Prop where
  fault : ∀ f, o = .fault f → o' = .fault f
  next : ∀ s', o = .next s' → ∃ t', o' = .next t' ∧ s'.pc = t'.pc ∧ s'.mem = t'.mem ∧ s'.prog = t'.prog ∧
    (∀ r : RegIndex, r.val ∈ writeSet i → s'.x r = t'.x r) ∧
    (∀ r : RegIndex, r.val ∉ writeSet i → s'.x r = s.x r ∧ t'.x r = t.x r)

theorem sameOutcome_fault (i : Instr) (s t : State) (f : Fault) : SameOutcome i s t (.fault f) (.fault f) where
  fault _ h := h
  next _ h := nomatch h

theorem sameOutcome_withImm {i : Instr} {s t : State} {range : ImmRange} {imm : Int}
    {o o' : Host.Outcome State Fault Refusal} (h : SameOutcome i s t o o') :
    SameOutcome i s t (withImm range imm o) (withImm range imm o') := by
  cases hc : range.contains imm with
  | true => rwa [withImm_in hc, withImm_in hc]
  | false =>
    rw [withImm_out hc, withImm_out hc]
    exact sameOutcome_fault i s t _

/-- Writing one value to the register of the write set, and advancing. -/
theorem sameOutcome_setX {i : Instr} {s t : State} (hpc : s.pc = t.pc) (hprog : s.prog = t.prog) (hmem : s.mem = t.mem)
    {d : RegIndex} (hd : writeSet i = [d.val]) {v w : Word} (hv : v = w) :
    SameOutcome i s t (.next (s.setX d v).advance) (.next (t.setX d w).advance) where
  fault _ h := nomatch h
  next s' h := by
    cases h
    refine ⟨_, rfl, by simp [hpc], by simp [hmem], by simp [hprog], fun r hr => ?_, fun r hr => ?_⟩
    · obtain rfl : r = d := by simpa [hd, Fin.ext_iff] using hr
      by_cases h31 : r = 31
      · subst h31
        simp
      · simp [h31, hv]
    · have hne : r ≠ d := by simpa [hd, Fin.ext_iff] using hr
      simp [State.x_setX_other _ _ hne]

/-- Changing the program counter and memory alike, and no register. -/
theorem sameOutcome_of_sameRegs {i : Instr} {s t s' t' : State} (hi : writeSet i = []) (hpc : s'.pc = t'.pc)
    (hmem : s'.mem = t'.mem) (hprog : s'.prog = t'.prog) (hs : SameRegs s s') (ht : SameRegs t t') :
    SameOutcome i s t (.next s') (.next t') where
  fault _ h := nomatch h
  next _ h := by
    cases h
    exact ⟨t', rfl, hpc, hmem, hprog, by simp [hi], fun r _ => ⟨hs r, ht r⟩⟩

/-- A conditional branch reads its operand and nothing else. -/
theorem sameOutcome_condBranch {i : Instr} {s t : State} (hi : writeSet i = []) (hpc : s.pc = t.pc)
    (hprog : s.prog = t.prog) (hmem : s.mem = t.mem) (takenOnZero : Bool) {r : RegIndex} (hr : s.x r = t.x r)
    (imm : Int) : SameOutcome i s t (condBranch takenOnZero r imm s) (condBranch takenOnZero r imm t) := by
  rw [condBranch_index, condBranch_index, hr]
  refine sameOutcome_withImm ?_
  split
  · exact sameOutcome_of_sameRegs hi (by simp [hpc]) hmem hprog (s.jump_x imm) (t.jump_x imm)
  · exact sameOutcome_of_sameRegs hi (by simp [hpc]) hmem hprog s.advance_x t.advance_x

/-- Settles O2: the outcome is a function of the program counter, memory, and the values of the registers read. -/
theorem registerReadsAndWritesFollowTable : Obligations.RegisterReadsAndWritesFollowTable := by
  intro i
  refine ⟨by cases i <;> simp [readSet], by cases i <;> simp [writeSet], fun s t hpc hprog hmem hregs => ?_⟩
  suffices h : SameOutcome i s t (exec i s) (exec i t) from ⟨h.fault, h.next⟩
  obtain ⟨q, hq⟩ | hok := firstBadReg_some_or_regsOk i
  · rw [exec_of_firstBadReg hq, exec_of_firstBadReg hq]
    exact sameOutcome_fault i s t _
  cases resolved_of_regsOk hok with
  | add d n m =>
    have hn : s.x n = t.x n := hregs n (by simp [readSet])
    have hm : s.x m = t.x m := hregs m (by simp [readSet])
    simp only [exec, execAdd, registerAlu_index]
    exact sameOutcome_setX hpc hprog hmem rfl (by rw [hn, hm])
  | sub d n m =>
    have hn : s.x n = t.x n := hregs n (by simp [readSet])
    have hm : s.x m = t.x m := hregs m (by simp [readSet])
    simp only [exec, execSub, registerAlu_index]
    exact sameOutcome_setX hpc hprog hmem rfl (by rw [hn, hm])
  | addi d n imm =>
    have hn : s.x n = t.x n := hregs n (by simp [readSet])
    simp only [exec, execAddi, immediateAlu_index]
    exact sameOutcome_withImm (sameOutcome_setX hpc hprog hmem rfl (by rw [hn]))
  | subi d n imm =>
    have hn : s.x n = t.x n := hregs n (by simp [readSet])
    simp only [exec, execSubi, immediateAlu_index]
    exact sameOutcome_withImm (sameOutcome_setX hpc hprog hmem rfl (by rw [hn]))
  | ldur d n imm =>
    have hn : s.x n = t.x n := hregs n (by simp [readSet])
    simp only [exec_ldur_index, effectiveAddress, hn, hmem]
    refine sameOutcome_withImm ?_
    cases memRead t.mem ((t.x n).toInt + imm) with
    | error f => exact sameOutcome_fault _ s t f
    | ok v => exact sameOutcome_setX hpc hprog hmem rfl rfl
  | stur r n imm =>
    have hn : s.x n = t.x n := hregs n (by simp [readSet])
    have hr : s.x r = t.x r := hregs r (by simp [readSet])
    simp only [exec_stur_index, effectiveAddress, hn, hr, hmem]
    refine sameOutcome_withImm ?_
    cases memWrite t.mem ((t.x n).toInt + imm) (t.x r) with
    | error f => exact sameOutcome_fault _ s t f
    | ok m => exact sameOutcome_of_sameRegs rfl (by simp [hpc]) rfl hprog (s.setMem m).advance_x (t.setMem m).advance_x
  | b imm =>
    exact sameOutcome_withImm
      (sameOutcome_of_sameRegs rfl (by simp [hpc]) hmem hprog (s.jump_x imm) (t.jump_x imm))
  | cbz r imm => exact sameOutcome_condBranch rfl hpc hprog hmem true (hregs r (by simp [readSet])) imm
  | cbnz r imm => exact sameOutcome_condBranch rfl hpc hprog hmem false (hregs r (by simp [readSet])) imm

end Sys2Proof.Machine
end

section
/-! Proofs of the family other, one step: the invariant of the machine, what a step does to memory, and what a call at
the program's end, at a bad entry and at a fault reports (10_state.md sections 6, 9, 10; 20_memory.md sections 2, 6;
60_exceptions.md sections 2, 3). -/

namespace Sys2Proof.Machine

/-! ### The invariant -/

theorem toNat_ofInt_emod_four (k : Int) (h : k % 4 = 0) : (BitVec.ofInt 64 k).toNat % 4 = 0 := by
  rw [BitVec.toNat_ofInt]
  omega

/-- Every new program counter is 4 times an integer away from the old one, modulo a multiple of 4 (rule R28). -/
theorem Effect.pcAligned {i : Instr} {s t : State} (h : Effect i s t) (hs : s.pc.toNat % 4 = 0) :
    t.pc.toNat % 4 = 0 := by
  have hadv : (BitVec.ofInt 64 (s.pc.toNat + 4)).toNat % 4 = 0 := toNat_ofInt_emod_four _ (by omega)
  cases h with
  | wrote d v hd => rwa [State.advance_pc_eq, State.setX_pc]
  | stored r n imm m hi hm => rwa [State.advance_pc_eq, State.setMem_pc]
  | jumped imm hi => rw [State.jump_pc_eq]; exact toNat_ofInt_emod_four _ (by omega)
  | fell hi => rwa [State.advance_pc_eq]

theorem Effect.memWf {i : Instr} {s t : State} (h : Effect i s t) (hs : s.mem.wf) : t.mem.wf := by
  cases h with
  | wrote d v hd => simpa using hs
  | stored r n imm m hi hm => exact wf_memWrite hm hs
  | jumped imm hi => exact hs
  | fell hi => exact hs

/-- The invariant speaks of the program, and of the program counter and memory that a step or a write may change. -/
theorem Inv.update {s t : State} (hs : Inv s) (hpc : t.pc.toNat % 4 = 0) (hmem : t.mem.wf) (hprog : t.prog = s.prog) :
    Inv t where
  pcAligned := hpc
  memWf := hmem
  legal := hprog ▸ hs.legal
  progLen := hprog ▸ hs.progLen

/-- Every step keeps the invariant. -/
theorem Inv.afterStep {s t : State} (hs : Inv s) (h : step s = .next t) : Inv t := by
  obtain ⟨-, rfl⟩ | ⟨i, -, he⟩ := step_next h
  · exact hs
  · have heff := exec_effect he
    exact hs.update (heff.pcAligned hs.pcAligned) (heff.memWf hs.memWf) (exec_prog he)

/-- Settles O38: what an instruction can do to the program counter and to memory keeps their part of the invariant. -/
theorem stepKeepsInvariant : Obligations.StepKeepsInvariant :=
  fun _ t hs h => ⟨hs.afterStep h, step_prog h, t.x_zeroReg⟩

/-- Settles O39: reset has `pc` 0, the empty memory and the empty program. -/
theorem resetMeetsInvariant : Obligations.ResetMeetsInvariant :=
  ⟨⟨rfl, Memory.wf_reset, nofun, Nat.zero_le _⟩, rfl, rfl, rfl⟩

/-! ### Memory -/

/-- Settles O23: the bytes of the double word at an address are those the byte accessor finds there. -/
theorem hostSeesBigEndianBytes : Obligations.HostSeesBigEndianBytes := by
  intro s t a v hm h j hj
  unfold writeDoubleWord at h
  split at h <;> cases h
  next m hw =>
  obtain ⟨-, h0, h1, -⟩ := memWrite_ok hw
  rw [readByte, checkByte_inside (by omega) (by omega), show (a + j).toNat = a.toNat + j by omega, State.setMem_mem,
    isDoubleWordAt_memWrite hw hm j hj]

/-- Settles O24: the store changes neither the base nor the check, and the double word written reads back. -/
theorem loadSeesPrecedingStore : Obligations.LoadSeesPrecedingStore := by
  intro s t d n imm hm h0 h1 ha hlo hhi
  have hfit : (effectiveAddress s n imm).toNat + 8 ≤ Config.memSize := by
    show (effectiveAddress s n imm).toNat + 8 ≤ 256
    omega
  refine ⟨_, _, (exec_stur_index t n imm s).trans (afterAccess_ok h0 h1 (memWrite_inside ha hlo hhi s.mem (s.x t))),
    (exec_ldur_index d n imm _).trans (afterAccess_ok h0 h1 ?load), registerResult_setX_advance d (s.x t) _⟩
  case load =>
    refine (memRead_inside ha hlo hhi _).trans (congrArg Except.ok ?_)
    exact Memory.readDouble_writeDouble (s.x t) hm hfit

theorem Effect.sameMem {i : Instr} {s t : State} (h : Effect i s t) (hi : ∀ r n imm, i ≠ .stur r n imm) :
    SameMem s t := by
  intro a
  cases h with
  | wrote d v hd => simp
  | stored r n imm m he hm => exact absurd he (hi _ _ _)
  | jumped imm hi => rfl
  | fell hi => rfl

/-- Settles O25: of the effects of an instruction only a store's reaches memory. -/
theorem onlyStoresWriteMemory : Obligations.OnlyStoresWriteMemory := by
  intro s t h hf
  obtain ⟨-, rfl⟩ | ⟨i, hi, he⟩ := step_next h
  · exact fun _ => rfl
  · exact (exec_effect he).sameMem fun r n imm hstur => hf r n imm (by rw [hi, hstur])

/-! ### The program's end, bad entries and faults -/

/-- Settles O27: the comparisons of the program counter with the end of the program. -/
theorem engineStateComparesPcWithEnd : Obligations.EngineStateComparesPcWithEnd := by
  intro s
  refine ⟨s.running_iff, s.halted_iff, fun hpc => ?_, step_of_end⟩
  rw [s.running_iff, s.progEnd_eq, hpc, ← List.length_pos_iff]
  show 0 < _ ↔ _
  omega

theorem State.fetch_of_decode_error {s : State} {k : Nat} (hk : k < s.prog.length) {e : Malformed}
    (hpc : s.pc.toNat = 4 * k) (hd : decode s.prog[k] = .error e) :
    s.fetch = .fault (.malformedInstruction k e) := by
  have hidx : s.pc.toNat / 4 = k := by omega
  have hend := s.progEnd_eq
  obtain ⟨h, -⟩ | ⟨h, -⟩ | ⟨_, -, ⟨i, hi, -⟩ | ⟨e', he, hf⟩⟩ := fetch_cases s
  · omega
  · omega
  · simp [hidx, hd] at hi
  · simp only [hidx, hd, Except.error.injEq] at he
    rw [hf, hidx, he]

/-- Settles O29: the fetch finds the bad entry. -/
theorem undecodableEntryStops : Obligations.UndecodableEntryStops := by
  intro s k hk e hpc hd
  simp only [step, State.fetch_of_decode_error hk hpc hd, raise]

theorem Session.step_start_of_fault {s : State} {f : Fault} (h : stepCall s = .faulted f s) :
    (Session.start s).step = ⟨s, some f⟩ := by
  simp only [Session.step, Session.start, h]

/-- Settles O30: a call that faults reports the state before it, in which the same call is the same fault. -/
theorem faultLeavesStateAndRepeats : Obligations.FaultLeavesStateAndRepeats := by
  intro s f h
  have hc := stepCall_of_fault h
  have hs := Session.step_start_of_fault hc
  exact ⟨hc, hs, by rw [hs, hc]⟩

/-- Settles O50: the snapshots are built entry by entry. -/
theorem snapshotsShowRegistersAndMemory : Obligations.SnapshotsShowRegistersAndMemory := by
  intro s
  refine ⟨rfl, ?_, fun i => ?_, fun a => ?_⟩
  · simp only [registerSnapshot, Vector.getElem_ofFn]
    exact s.x_zeroReg
  · simp only [registerSnapshot, Vector.getElem_ofFn]
  · simp only [memorySnapshot, Vector.getElem_ofFn]

end Sys2Proof.Machine
end

section
/-! Proofs of the family other, runs and sessions: where a branch leads, how a run ends, straight-line programs, and
driving the engine by single calls (10_state.md rules R38 to R41; 60_exceptions.md sections 3, 5). -/

namespace Sys2Proof.Machine

/-! ### A recorded fault -/

theorem Session.step_of_fault {c : Session} {f : Fault} (h : c.fault = some f) : c.step = c := by
  simp only [Session.step, h]

/-- A host write changes neither the recorded fault nor the program counter nor the program. -/
theorem Session.hostWrite_frame (c : Session) (w : HostWrite) :
    (c.hostWrite w).fault = c.fault ∧ (c.hostWrite w).state.pc = c.state.pc ∧
      (c.hostWrite w).state.prog = c.state.prog := by
  unfold Session.hostWrite
  split
  · next t ht => exact ⟨rfl, (applyWrite_effect ht).pc_eq, (applyWrite_effect ht).prog_eq⟩
  · exact ⟨rfl, rfl, rfl⟩

/-- After a fault no move changes the recorded fault, the program counter or the program. -/
theorem Session.move_frame_of_fault {c : Session} {f : Fault} (h : c.fault = some f) (m : HostMove) :
    (c.move m).fault = some f ∧ (c.move m).state.pc = c.state.pc ∧ (c.move m).state.prog = c.state.prog := by
  cases m with
  | step =>
    rw [Session.move, Session.step_of_fault h]
    exact ⟨h, rfl, rfl⟩
  | write w => exact h ▸ c.hostWrite_frame w

theorem Session.foldl_move_frame_of_fault {c : Session} {f : Fault} (h : c.fault = some f) (moves : List HostMove) :
    (moves.foldl Session.move c).fault = some f ∧ (moves.foldl Session.move c).state.pc = c.state.pc ∧
      (moves.foldl Session.move c).state.prog = c.state.prog := by
  induction moves generalizing c with
  | nil => exact ⟨h, rfl, rfl⟩
  | cons m moves ih =>
    obtain ⟨hf, hpc, hprog⟩ := Session.move_frame_of_fault h m
    obtain ⟨hf', hpc', hprog'⟩ := ih hf
    exact ⟨hf', hpc'.trans hpc, hprog'.trans hprog⟩

/-- Settles O31: induction over the moves; a session with a recorded fault is not completed. -/
theorem recordedFaultIsFinal : Obligations.RecordedFaultIsFinal := by
  intro c f moves h
  obtain ⟨hf, hpc, hprog⟩ := Session.foldl_move_frame_of_fault h moves
  refine ⟨hf, ?_, hpc, hprog⟩
  simp [Session.completed, hf]

/-! ### Branches -/

/-- A fetched instruction stands in the program, at an offset before its end. -/
theorem State.fetch_instr {s : State} {i : Instr} (h : s.fetch = .instr i) :
    s.pc.toNat < s.progEnd ∧ ∃ w ∈ s.prog, decode w = .ok i := by
  obtain ⟨-, hf⟩ | ⟨-, hf⟩ | ⟨hlt, hend, ⟨j, hd, hf⟩ | ⟨e, -, hf⟩⟩ := fetch_cases s <;> rw [hf] at h <;> cases h
  exact ⟨hend, _, List.getElem_mem hlt, hd⟩

theorem immB_of_decode {w : InsnWord} {imm : Int} (h : decode w = .ok (.b imm)) : -33554432 ≤ imm ∧ imm ≤ 33554431 :=
  (contains_iff Config.immB imm).mp (wellFormed_iff.mp (wellFormed_of_decode h)).2

/-- Settles O32: the jump is made modulo 2^64, and the program ends at 2^34 at most, so a wrapped target lies beyond
it. -/
theorem branchTargetDecidesWhatFollows : Obligations.BranchTargetDecidesWhatFollows := by
  intro s imm hs hf
  obtain ⟨hlt, w, -, hd⟩ := State.fetch_instr hf
  obtain ⟨h0, h1⟩ := immB_of_decode hd
  have hlen : s.prog.length ≤ 2 ^ 32 := hs.progLen
  have hend : (s.jump imm).progEnd = 4 * s.prog.length := State.progEnd_eq _
  rw [s.progEnd_eq] at hlt
  have htarget : ((s.jump imm).pc.toNat : Int) = (s.pc.toNat + 4 * imm) % 2 ^ 64 := by
    rw [State.jump_pc_eq, BitVec.toNat_ofInt]
    omega
  refine ⟨s.jump imm, (step_of_fetch_instr hf).trans (execB_inside h0 h1 s), s.jump_prog imm,
    fun hlo hhi => ⟨by omega, (State.running_iff _).mpr (by omega)⟩, fun hat => ?atEnd,
    fun hneg => ⟨by omega, step_of_beyond (by omega)⟩, fun hbeyond => ⟨by omega, step_of_beyond (by omega)⟩⟩
  case atEnd =>
    have hpc : (s.jump imm).pc.toNat = (s.jump imm).progEnd := by omega
    exact ⟨(State.cleanHalt_iff _).mpr hpc, stepCall_of_end hpc, step_of_end hpc⟩

/-- Settles O33: the jump by 0 is made in one step, which the engine reports as a step, and changes nothing. -/
theorem selfBranchNeverEnds : Obligations.SelfBranchNeverEnds := by
  intro s hf fuel
  obtain ⟨hlt, -⟩ := State.fetch_instr hf
  have hjump : s.jump 0 = s := by simp [State.jump, State.setPc]
  have hstep : step s = .next s := by
    rw [step_of_fetch_instr hf, exec, execB_inside (by decide) (by decide), hjump]
  have hc : stepCall s = .stepped s := (stepCall_of_next hstep).resolve_left fun h => by omega
  induction fuel with
  | zero => exact run_zero_of_ne_end (by omega)
  | succ fuel ih => rw [run_succ_of_stepped hc, ih]

/-! ### How a run ends -/

/-- No step is refused. -/
theorem step_not_refused (s : State) (r : Refusal) : step s ≠ .refused r := by
  intro h
  unfold step at h
  split at h
  · cases h
  · cases h
  · exact exec_not_refused _ s r h

/-- Everything a run can report. -/
theorem run_cases (fuel : Nat) (s : State) :
    (∃ t, run fuel s = .halted t) ∨ (∃ f t, run fuel s = .faulted f t) ∨ ∃ t, run fuel s = .goingOn t := by
  induction fuel generalizing s with
  | zero =>
    by_cases hend : s.pc.toNat = s.progEnd
    · exact .inl ⟨s, run_of_end hend 0⟩
    · exact .inr (.inr ⟨s, run_zero_of_ne_end hend⟩)
  | succ fuel ih =>
    obtain ⟨hend, -⟩ | ⟨t, -, hc⟩ | ⟨f, -, hc⟩ | ⟨r, hr, -⟩ := stepCall_cases s
    · exact .inl ⟨s, run_of_end hend _⟩
    · rw [run_succ_of_stepped hc]
      exact ih t
    · exact .inr (.inl ⟨f, s, by rw [run, hc]⟩)
    · exact absurd hr (step_not_refused s r)

/-- A run that completes never faults. -/
theorem not_faulted_of_halted {m n : Nat} {s t u : State} {f : Fault} (hm : run m s = .halted t) :
    run n s ≠ .faulted f u := by
  intro hn
  have hsame := run_eq_of_ended (m := m) (n := n) (s := s) (by simp [hm]) (by simp [hn])
  simp [hm, hn] at hsame

/-- Settles O35: a run that does not go on for ever is over in one of two ways, and only in one. -/
theorem runEndsInExactlyOneWay : Obligations.RunEndsInExactlyOneWay := by
  intro s
  by_cases hgo : ∀ fuel, ∃ t, run fuel s = .goingOn t
  · refine .inr (.inr ⟨fun ⟨t, n, hn⟩ => ?_, fun ⟨n, f, t, hn⟩ => ?_, hgo⟩)
    all_goals
      obtain ⟨u, hu⟩ := hgo n
      simp [hn] at hu
  · obtain ⟨n, hn⟩ := not_forall.mp hgo
    obtain ⟨t, ht⟩ | ⟨f, t, ht⟩ | hgoing := run_cases n s
    · exact .inl ⟨⟨t, n, ht⟩, fun ⟨_, _, _, hf⟩ => not_faulted_of_halted ht hf, hgo⟩
    · exact .inr (.inl ⟨fun ⟨_, _, hh⟩ => not_faulted_of_halted hh ht, ⟨n, f, t, ht⟩, hgo⟩)
    · exact absurd hgoing hn

/-! ### Straight-line programs -/

/-- ADD, SUB, ADDI and SUBI: the opcodes of a straight-line program. -/
def IsAlu (i : Instr) : Prop := i.opcode.cls = .register ∨ i.opcode.cls = .immediate

/-- A well-formed instruction of the two ALU classes goes on to the next instruction and leaves memory alone. -/
theorem exec_alu {i : Instr} (hi : i.wellFormed = true) (halu : IsAlu i) (s : State) :
    ∃ t, exec i s = .next t ∧ t.pc = s.pc + 4 ∧ t.mem = s.mem := by
  obtain ⟨hregs, himm⟩ := wellFormed_iff.mp hi
  cases resolved_of_regsOk hregs with
  | add d n m => exact ⟨_, registerAlu_index .add d n m s, by simp, by simp⟩
  | sub d n m => exact ⟨_, registerAlu_index .sub d n m s, by simp, by simp⟩
  | addi d n imm => exact ⟨_, (immediateAlu_index .add d n imm s).trans (withImm_in himm _), by simp, by simp⟩
  | subi d n imm => exact ⟨_, (immediateAlu_index .sub d n imm s).trans (withImm_in himm _), by simp, by simp⟩
  | ldur => simp [IsAlu, Instr.opcode, Opcode.cls] at halu
  | stur => simp [IsAlu, Instr.opcode, Opcode.cls] at halu
  | b => simp [IsAlu, Instr.opcode, Opcode.cls] at halu
  | cbz => simp [IsAlu, Instr.opcode, Opcode.cls] at halu
  | cbnz => simp [IsAlu, Instr.opcode, Opcode.cls] at halu

/-- One step of a straight-line program from before its end. -/
theorem step_straightLine {s : State} (hs : Inv s) (hlt : s.pc.toNat < s.progEnd)
    (halu : ∀ w ∈ s.prog, ∃ i, decode w = .ok i ∧ IsAlu i) :
    ∃ t, stepCall s = .stepped t ∧ Inv t ∧ t.prog = s.prog ∧ t.pc.toNat = s.pc.toNat + 4 ∧ t.mem = s.mem := by
  have hend := s.progEnd_eq
  have hlen : s.prog.length ≤ 2 ^ 32 := hs.progLen
  have haligned := hs.pcAligned
  have hk : s.pc.toNat / 4 < s.prog.length := by omega
  obtain ⟨i, hd, hi⟩ := halu _ (List.getElem_mem hk)
  obtain ⟨t, ht, hpc, hmem⟩ := exec_alu (wellFormed_of_decode hd) hi s
  have hstep : step s = .next t := (step_of_fetch_instr (State.fetch_of_decode hk (by omega) hd)).trans ht
  refine ⟨t, (stepCall_of_next hstep).resolve_left fun h => by omega, hs.afterStep hstep, step_prog hstep, ?_, hmem⟩
  rw [hpc, BitVec.toNat_add]
  show (s.pc.toNat + 4) % 2 ^ 64 = _
  omega

/-- A straight-line program with `n` instructions to go is over after `n` steps. -/
theorem run_straightLine {n : Nat} {s : State} (hs : Inv s) (hn : s.pc.toNat + 4 * n = s.progEnd)
    (halu : ∀ w ∈ s.prog, ∃ i, decode w = .ok i ∧ IsAlu i) :
    ∃ t, run n s = .halted t ∧ t.mem = s.mem := by
  induction n generalizing s with
  | zero => exact ⟨s, run_of_end hn 0, rfl⟩
  | succ n ih =>
    obtain ⟨t, hc, ht, hprog, hpc, hmem⟩ := step_straightLine hs (by omega) halu
    have hend : t.progEnd = s.progEnd := by rw [t.progEnd_eq, s.progEnd_eq, hprog]
    obtain ⟨u, hu, humem⟩ := ih ht (by omega) (hprog ▸ halu)
    exact ⟨u, (run_succ_of_stepped hc n).trans hu, humem.trans hmem⟩

/-- A run that completes is safe. -/
theorem safeRun_of_halted {n : Nat} {s t : State} (h : run n s = .halted t) : SafeRun s := by
  intro fuel
  obtain hh | ⟨f, u, hf⟩ | hg := run_cases fuel s
  · exact .inl hh
  · exact absurd hf (not_faulted_of_halted h)
  · exact .inr hg

/-- Settles O36: induction over the instructions to go. -/
theorem straightLineProgramCompletes : Obligations.StraightLineProgramCompletes := by
  intro s hs hle halu
  have haligned := hs.pcAligned
  have hend := s.progEnd_eq
  obtain ⟨t, ht, hmem⟩ := run_straightLine (n := s.prog.length - s.pc.toNat / 4) hs (by omega) halu
  exact ⟨safeRun_of_halted ht, t, ht, fun a => by rw [hmem]⟩

/-! ### Single calls -/

/-- The session that a run's report describes. -/
def Session.ofReport : RunReport → Session
  | .halted t => ⟨t, none⟩
  | .faulted f t => ⟨t, some f⟩
  | .refused _ t => ⟨t, none⟩
  | .goingOn t => ⟨t, none⟩

theorem Session.steps_of_step_eq {c : Session} (h : c.step = c) (n : Nat) : Session.steps n c = c := by
  induction n with
  | zero => rfl
  | succ n ih => rw [Session.steps, h, ih]

theorem Session.step_start_of_end {s : State} (h : stepCall s = .halted s) :
    (Session.start s).step = Session.start s := by
  simp only [Session.step, Session.start, h]

theorem Session.step_start_of_stepped {s t : State} (h : stepCall s = .stepped t) :
    (Session.start s).step = Session.start t := by
  simp only [Session.step, Session.start, h]

/-- The calls of a session are the steps of a run; a call at the program's end and after a fault changes nothing. -/
theorem Session.steps_start (n : Nat) (s : State) : Session.steps n (Session.start s) = Session.ofReport (run n s) := by
  induction n generalizing s with
  | zero =>
    by_cases hend : s.pc.toNat = s.progEnd
    · rw [run_of_end hend]
      rfl
    · rw [run_zero_of_ne_end hend]
      rfl
  | succ n ih =>
    obtain ⟨hend, hc⟩ | ⟨t, -, hc⟩ | ⟨f, -, hc⟩ | ⟨r, hr, -⟩ := stepCall_cases s
    · rw [run_of_end hend, Session.steps_of_step_eq (Session.step_start_of_end hc)]
      rfl
    · rw [run_succ_of_stepped hc, Session.steps, Session.step_start_of_stepped hc, ih]
    · rw [Session.steps, Session.step_start_of_fault hc, Session.steps_of_step_eq (Session.step_of_fault rfl), run, hc]
      rfl
    · exact absurd hr (step_not_refused s r)

/-- A run that goes on does not stand at the program's end. -/
theorem ne_end_of_run_goingOn {n : Nat} {s t : State} (h : run n s = .goingOn t) : t.pc.toNat ≠ t.progEnd := by
  induction n generalizing s with
  | zero =>
    by_cases hend : s.pc.toNat = s.progEnd
    · rw [run_of_end hend] at h
      cases h
    · rw [run_zero_of_ne_end hend] at h
      cases h
      exact hend
  | succ n ih =>
    obtain ⟨hend, -⟩ | ⟨u, -, hc⟩ | ⟨f, -, hc⟩ | ⟨r, -, hc⟩ := stepCall_cases s
    · rw [run_of_end hend] at h
      cases h
    · rw [run_succ_of_stepped hc] at h
      exact ih h
    · simp [run, hc] at h
    · simp [run, hc] at h

/-- Settles O37: the session is the one the run's report describes, completed exactly if the run has halted. -/
theorem singleSteppingEqualsRunning : Obligations.SingleSteppingEqualsRunning := by
  intro fuel s
  have hsteps := Session.steps_start fuel s
  obtain ⟨t, ht⟩ | ⟨f, t, ht⟩ | ⟨t, ht⟩ := run_cases fuel s
  · have hend := (reaches_of_run_halted ht).2
    simp only [ht, hsteps, Session.ofReport, Session.completed, (State.cleanHalt_iff t).mpr hend]
    exact ⟨trivial, rfl⟩
  · simp only [ht, hsteps, Session.ofReport]
  · have hend := mt (State.cleanHalt_iff t).mp (ne_end_of_run_goingOn ht)
    simp only [ht, hsteps, Session.ofReport, Session.completed, hend]
    exact ⟨trivial, rfl⟩

end Sys2Proof.Machine
end

section
/-! Proofs of the family other, assembly text: numbers, registers and immediates as text, the tokens of a line, and
`asm_decode` (30_encoding.md sections 4, 5; 10_state.md rule R26; the spec's decisions D14, D20). -/

namespace Sys2Proof.Asm

/-! ### Decimal numbers -/

/-- Text that `number?` reads: at least one digit, and no superfluous zero in front. -/
structure IsNumeral (cs : List Char) : Prop where
  nonempty : cs ≠ []
  digit : ∀ c ∈ cs, c.isDigit = true
  noZero : cs.head? = some '0' → cs.length ≤ 1

theorem number?_eq_some_iff_isNumeral {cs : List Char} {n : Nat} :
    number? cs = some n ↔ IsNumeral cs ∧ Nat.ofDigitChars 10 cs 0 = n := by
  rw [number?, Option.ite_none_left_eq_some, Option.some_inj]
  refine and_congr_left' ⟨fun h => ?_, fun ⟨hne, hd, hz⟩ => ?_⟩
  · simp only [Bool.or_eq_true, not_or, Bool.and_eq_true, not_and] at h
    obtain ⟨⟨hne, hd⟩, hz⟩ := h
    exact ⟨by simpa using hne, by simpa using hd, by simpa using hz⟩
  · simpa using And.intro (And.intro hne hd) hz

theorem exists_digitChar {c : Char} (h : c.isDigit = true) : ∃ n < 10, c = Nat.digitChar n := by
  have hb : 48 ≤ c.toNat ∧ c.toNat ≤ 57 := by simpa [Char.isDigit, UInt32.le_iff_toNat_le] using h
  obtain ⟨h0, h1⟩ := hb
  refine ⟨c.toNat - 48, by omega, ?_⟩
  rw [← Char.ofNat_toNat c]
  interval_cases c.toNat <;> rfl

theorem head?_digits_ne_zero {n : Nat} (h : 0 < n) : (digits n).head? ≠ some '0' := by
  induction n using Nat.strongRecOn with
  | ind n ih =>
    unfold digits
    by_cases hlt : n < 10
    · rw [Nat.toDigits_of_lt_base hlt]
      interval_cases n <;> decide
    · have hq : 0 < n / 10 := by omega
      rw [Nat.toDigits_of_base_le (by decide) (by omega), List.head?_append_of_ne_nil _ Nat.toDigits_ne_nil]
      exact ih (n / 10) (by omega) hq

theorem isNumeral_digits (n : Nat) : IsNumeral (digits n) where
  nonempty := Nat.toDigits_ne_nil
  digit c hc := Nat.isDigit_of_mem_toDigits (by decide) (by decide) hc
  noZero h := by
    obtain rfl : n = 0 := by
      by_contra hn
      exact head?_digits_ne_zero (Nat.pos_of_ne_zero hn) h
    decide

/-- A numeral is the digits of its value: induction from its last digit. -/
theorem digits_ofDigitChars {cs : List Char} (h : IsNumeral cs) : digits (Nat.ofDigitChars 10 cs 0) = cs := by
  induction cs using List.reverseRecOn with
  | nil => exact absurd rfl h.nonempty
  | append_singleton ds c ih =>
    obtain ⟨d, hd, rfl⟩ := exists_digitChar (h.digit c (by simp))
    by_cases hds : ds = []
    · subst hds
      rw [List.nil_append, Nat.ofDigitChars_cons_digitChar_of_lt_ten hd, Nat.ofDigitChars_nil, digits,
        Nat.toDigits_of_lt_base (by omega), Nat.mul_zero, Nat.zero_add]
    · have hhead : ds.head? ≠ some '0' := fun hz => by
        have hlen := h.noZero (by rwa [List.head?_append_of_ne_nil _ hds])
        have := List.length_pos_iff.mpr hds
        rw [List.length_append, List.length_singleton] at hlen
        omega
      have hnum := ih ⟨hds, fun c hc => h.digit c (by simp [hc]), fun hz => absurd hz hhead⟩
      have hpos : 0 < Nat.ofDigitChars 10 ds 0 := by
        by_contra hz
        rw [Nat.eq_zero_of_not_pos hz] at hnum
        exact hhead (hnum ▸ rfl)
      rw [Nat.ofDigitChars_append, Nat.ofDigitChars_cons_digitChar_of_lt_ten hd, Nat.ofDigitChars_nil, digits,
        ← Nat.toDigits_append_toDigits (by decide) hpos hd, Nat.toDigits_of_lt_base hd]
      exact congrArg (· ++ [d.digitChar]) hnum

/-- `number?` reads the decimal digits of a number and nothing else (rules R112, R113; decision D14). -/
theorem number?_eq_some_iff {cs : List Char} {n : Nat} : number? cs = some n ↔ cs = digits n := by
  rw [number?_eq_some_iff_isNumeral]
  constructor
  · rintro ⟨h, rfl⟩
    exact (digits_ofDigitChars h).symm
  · rintro rfl
    exact ⟨isNumeral_digits n, Nat.ofDigitChars_ten_toDigits⟩

theorem number?_digits (n : Nat) : number? (digits n) = some n := number?_eq_some_iff.mpr rfl

/-! ### Characters and tokens -/

/-- A character of a word in upper case: it cuts no token and has no other upper case. -/
abbrev IsWordChar (c : Char) : Prop := c.toUpper = c ∧ isBlank c = false ∧ separator? c = none

/-- The text of a word token. -/
def IsWord (w : List Char) : Prop := w ≠ [] ∧ ∀ c ∈ w, IsWordChar c

theorem isWordChar_of_isDigit {c : Char} (h : c.isDigit = true) : IsWordChar c := by
  obtain ⟨n, hn, rfl⟩ := exists_digitChar h
  interval_cases n <;> exact ⟨rfl, rfl, rfl⟩

theorem isWordChar_of_mem_digits {n : Nat} {c : Char} (h : c ∈ digits n) : IsWordChar c :=
  isWordChar_of_isDigit ((isNumeral_digits n).digit c h)

theorem map_toUpper_digits (n : Nat) : (digits n).map Char.toUpper = digits n :=
  (List.map_congr_left fun _ hc => (isWordChar_of_mem_digits hc).1).trans (List.map_id _)

theorem isWord_mnemonic (op : Opcode) : IsWord (mnemonic op) := by
  cases op <;> simp [mnemonic, IsWord, IsWordChar, isBlank, separator?]

theorem isWord_cons {c : Char} {w : List Char} (hc : IsWordChar c) (hw : ∀ c ∈ w, IsWordChar c) : IsWord (c :: w) :=
  ⟨List.cons_ne_nil c w, List.forall_mem_cons.mpr ⟨hc, hw⟩⟩

theorem isWord_registerText (r : Nat) : IsWord (registerText r) := by
  unfold registerText
  split
  · simp [IsWord, IsWordChar, isBlank, separator?]
  · exact isWord_cons (by decide) fun _ => isWordChar_of_mem_digits

theorem isWord_immediateText (k : Int) : IsWord (immediateText k) := by
  cases k with
  | ofNat n => exact isWord_cons (by decide) fun _ => isWordChar_of_mem_digits
  | negSucc n => exact isWord_cons (by decide) (isWord_cons (by decide) fun _ => isWordChar_of_mem_digits).2

/-- The characters of a word join the word being read. -/
theorem lexFrom_word {w : List Char} (hw : ∀ c ∈ w, IsWordChar c) (pending : List Char) (rest : AsmLine) :
    lexFrom pending ((w ++ rest).map Char.toUpper) = lexFrom (pending ++ w) (rest.map Char.toUpper) := by
  induction w generalizing pending with
  | nil => simp
  | cons c w ih =>
    obtain ⟨hup, hblank, hsep⟩ := hw c (by simp)
    rw [List.cons_append, List.map_cons, hup, lexFrom, hblank, hsep]
    simpa using ih (fun c hc => hw c (by simp [hc])) (pending ++ [c])

/-- A word and what follows it. -/
theorem lex_word_append {w : List Char} (hw : IsWord w) (rest : AsmLine) :
    lex (w ++ rest) = lexFrom w (rest.map Char.toUpper) := lexFrom_word hw.2 [] rest

theorem flush_word {w : List Char} (hw : IsWord w) (ts : List Token) : flush w ts = .word w :: ts := by
  simp [flush, hw.1]

theorem lex_word {w : List Char} (hw : IsWord w) : lex w = [.word w] := by
  have h := lex_word_append hw []
  rw [List.append_nil] at h
  exact h.trans (flush_word hw [])

theorem lex_word_space {w : List Char} (hw : IsWord w) (rest : AsmLine) :
    lex (w ++ ' ' :: rest) = .word w :: lex rest :=
  (lex_word_append hw _).trans (flush_word hw _)

theorem lex_word_comma_space {w : List Char} (hw : IsWord w) (rest : AsmLine) :
    lex (w ++ ',' :: ' ' :: rest) = .word w :: .comma :: lex rest :=
  (lex_word_append hw _).trans (flush_word hw _)

theorem lex_word_rbracket {w : List Char} (hw : IsWord w) : lex (w ++ [']']) = [.word w, .rbracket] :=
  (lex_word_append hw _).trans (flush_word hw _)

theorem lex_lbracket (rest : AsmLine) : lex ('[' :: rest) = .lbracket :: lex rest := rfl

/-! ### Operands -/

/-- A register token is `X` and the decimal digits of the index, or `XZR` for index 31 (rule R112). -/
theorem registerToken?_eq_some_iff {tok : List Char} {i : RegIndex} :
    registerToken? tok = some i ↔ tok = 'X' :: digits i.val ∨ (i = 31 ∧ tok = ['X', 'Z', 'R']) := by
  have hdigits : ∀ n, ['Z', 'R'] ≠ digits n := fun n h =>
    absurd ((isNumeral_digits n).digit 'Z' (h ▸ by simp)) (by decide)
  unfold registerToken?
  split
  · simp [hdigits, eq_comm]
  · next cs hxzr =>
    have hcs : cs ≠ ['Z', 'R'] := fun h => hxzr (h ▸ rfl)
    simp only [List.cons.injEq, true_and, hcs, and_false, or_false]
    rw [← number?_eq_some_iff]
    cases number? cs with
    | none => simp
    | some k =>
      by_cases hk : k < 32
      · simp [hk, Fin.ext_iff]
      · simp only [hk, dif_neg, not_false_eq_true, Option.some_inj, reduceCtorEq, false_iff]
        have := i.isLt
        omega
  · next hxzr hx =>
    simp only [reduceCtorEq, false_iff, not_or]
    exact ⟨hx _, fun h => hxzr h.2⟩

theorem registerToken?_registerText (r : RegIndex) : registerToken? (registerText r.val) = some r := by
  rw [registerToken?_eq_some_iff, registerText]
  split
  · next h => exact .inr ⟨Fin.ext h, rfl⟩
  · exact .inl rfl

theorem immediateToken?_immediateText (k : Int) : immediateToken? (immediateText k) = some k := by
  cases k with
  | ofNat n =>
    have hminus : ∀ cs, digits n ≠ '-' :: cs := fun cs h =>
      absurd ((isNumeral_digits n).digit '-' (h ▸ by simp)) (by decide)
    unfold immediateText immediateToken?
    split
    · next cs h => exact absurd (List.tail_eq_of_cons_eq h) (hminus cs)
    · next cs _ h => rw [← List.tail_eq_of_cons_eq h, number?_digits]; rfl
    · next h => exact absurd rfl (h _)
  | negSucc n =>
    simp only [immediateText, immediateToken?, number?_digits]
    rfl

/-! ### Decoding a line -/

/-- The words of a line's tokens, separators dropped (rule R121). -/
def wordsOf (ts : List Token) : List (List Char) :=
  ts.filterMap fun | .word cs => some cs | _ => none

theorem parse_ok_iff {line : AsmLine} {op : Opcode} {operands : List (List Char)} :
    parse line = .ok (op, operands) ↔ ∃ word, wordsOf (lex line) = word :: operands ∧ opcodeOf word = some op := by
  have hparse : parse line = match wordsOf (lex line) with
    | word :: rest => match opcodeOf word with
      | some o => .ok (o, rest)
      | none => .error (.line line)
    | [] => .error (.line line) := rfl
  rw [hparse]
  cases wordsOf (lex line) with
  | nil => simp
  | cons word rest => cases ho : opcodeOf word <;> simp [ho, and_comm]

theorem parse_error {line : AsmLine} {e : Malformed} (h : parse line = .error e) : e = .line line := by
  unfold parse at h
  dsimp only at h
  split at h
  · split at h <;> cases h
    rfl
  · cases h
    rfl

/-- Everything a line passes on its way to an instruction. -/
theorem asmDecode_ok_iff {line : AsmLine} {i : Instr} : asmDecode line = .ok i ↔
    ∃ op operands, parse line = .ok (op, operands) ∧ shapeOk op.cls (lex line).tail = true ∧
      resolve op operands = some i ∧ i.wellFormed = true := by
  constructor
  · intro h
    unfold asmDecode at h
    split at h
    · cases h
    · next op operands hp =>
      split at h
      · next hs =>
        split at h
        · next j hr =>
          split at h <;> cases h
          next hwf => exact ⟨op, operands, hp, hs, hr, hwf⟩
        · cases h
      · cases h
  · rintro ⟨op, operands, hp, hs, hr, hwf⟩
    simp only [asmDecode, hp, hs, hr, hwf, if_true]

/-- A line that does not decode is rejected under its name, with the line. -/
theorem asmDecode_error {line : AsmLine} {e : Malformed} (h : asmDecode line = .error e) : e = .line line := by
  unfold asmDecode at h
  split at h
  · next hp => cases h; exact parse_error hp
  · split at h
    · split at h
      · split at h <;> cases h
        rfl
      · cases h
        rfl
    · cases h
      rfl

theorem asmDecode_eq_error {line : AsmLine} (h : ∀ i, asmDecode line ≠ .ok i) :
    asmDecode line = .error (.line line) := by
  cases hd : asmDecode line with
  | ok i => exact absurd hd (h i)
  | error e => rw [asmDecode_error hd]

theorem wellFormed_of_asmDecode {line : AsmLine} {i : Instr} (h : asmDecode line = .ok i) : i.wellFormed = true := by
  obtain ⟨_, _, -, -, -, hwf⟩ := asmDecode_ok_iff.mp h
  exact hwf

theorem lex_eq_of_toUpper_eq {line line' : AsmLine} (h : line.map Char.toUpper = line'.map Char.toUpper) :
    lex line = lex line' := by
  rw [lex, lex, h]

/-- Settles O59: a line is put in upper case before anything else is done with it. -/
theorem letterCaseDoesNotMatter : Obligations.LetterCaseDoesNotMatter := by
  intro line line' i hcase h
  obtain ⟨op, operands, hparse, hrest⟩ := asmDecode_ok_iff.mp h
  rw [parse_ok_iff, lex_eq_of_toUpper_eq hcase, ← parse_ok_iff] at hparse
  rw [lex_eq_of_toUpper_eq hcase] at hrest
  exact asmDecode_ok_iff.mpr ⟨op, operands, hparse, hrest⟩

/-- Settles O58: `asm_decode` ends with the check of the ranges, and rejects every other line under its name. -/
theorem acceptedLinesAreWellFormed : Obligations.AcceptedLinesAreWellFormed := by
  refine ⟨fun line i h => ?_, fun line => ?_, fun line => asmDecode_eq_error⟩
  · have hwf := wellFormed_of_asmDecode h
    exact ⟨hwf, decode_encode hwf⟩
  · unfold validate
    cases asmDecode line <;> simp

/-! ### The canonical text -/

theorem opcodeOf_mnemonic (op : Opcode) : opcodeOf (mnemonic op) = some op := by cases op <;> decide

/-- The tokens of the canonical text behind the opcode. -/
def operandTokens : Instr → List Token
  | .add d n m => [.word (registerText d), .comma, .word (registerText n), .comma, .word (registerText m)]
  | .sub d n m => [.word (registerText d), .comma, .word (registerText n), .comma, .word (registerText m)]
  | .addi d n imm => [.word (registerText d), .comma, .word (registerText n), .comma, .word (immediateText imm)]
  | .subi d n imm => [.word (registerText d), .comma, .word (registerText n), .comma, .word (immediateText imm)]
  | .ldur t n imm =>
    [.word (registerText t), .comma, .lbracket, .word (registerText n), .comma, .word (immediateText imm), .rbracket]
  | .stur t n imm =>
    [.word (registerText t), .comma, .lbracket, .word (registerText n), .comma, .word (immediateText imm), .rbracket]
  | .b imm => [.word (immediateText imm)]
  | .cbz t imm => [.word (registerText t), .comma, .word (immediateText imm)]
  | .cbnz t imm => [.word (registerText t), .comma, .word (immediateText imm)]

theorem lex_print (i : Instr) : lex (print i) = .word (mnemonic i.opcode) :: operandTokens i := by
  cases i
  all_goals
    simp only [print, operandTokens, Instr.opcode, List.append_assoc, List.cons_append, List.nil_append, lex_word_space,
      lex_word_comma_space, lex_lbracket, lex_word_rbracket, lex_word, isWord_mnemonic, isWord_registerText,
      isWord_immediateText]

theorem shapeOk_operandTokens (i : Instr) : shapeOk i.opcode.cls (operandTokens i) = true := by cases i <;> rfl

theorem resolve_operandTokens {i : Instr} (hi : Machine.Resolved i) :
    resolve i.opcode (wordsOf (operandTokens i)) = some i := by
  cases hi <;>
    simp [resolve, Instr.opcode, Opcode.cls, wordsOf, operandTokens, registerToken?_registerText,
      immediateToken?_immediateText]

/-- Settles O57: the canonical text is cut into the opcode and the operands' tokens, and these resolve to the
instruction. -/
theorem assemblyTextRoundTrip : Obligations.AssemblyTextRoundTrip := by
  intro i hi
  have hres := resolve_operandTokens (Machine.resolved_of_regsOk (wellFormed_iff.mp hi).1)
  refine asmDecode_ok_iff.mpr
    ⟨i.opcode, wordsOf (operandTokens i), parse_ok_iff.mpr ⟨_, ?_, opcodeOf_mnemonic _⟩, ?_, hres, hi⟩
  · rw [lex_print]
    rfl
  · rw [lex_print]
    exact shapeOk_operandTokens i

end Sys2Proof.Asm

/-! ### Register names -/

namespace Sys2Proof.Machine

theorem resolveName_ok_iff {name : List Char} {i : RegIndex} :
    resolveName name = .ok i ↔ Asm.registerToken? (name.map Char.toUpper) = some i := by
  unfold resolveName
  cases Asm.registerToken? (name.map Char.toUpper) <;> simp

theorem resolveName_eq_error {name : List Char} (h : ∀ i, resolveName name ≠ .ok i) :
    resolveName name = .error (.invalidRegister name) := by
  unfold resolveName at h ⊢
  split
  · next i hi => exact absurd (by rw [hi]) (h i)
  · rfl

/-- The name of a register by its digits, the `X` in either case. -/
theorem resolveName_digits (i : RegIndex) {c : Char} (hc : c.toUpper = 'X') :
    resolveName (c :: Asm.digits i.val) = .ok i := by
  rw [resolveName_ok_iff, List.map_cons, hc, Asm.map_toUpper_digits]
  exact Asm.registerToken?_eq_some_iff.mpr (.inl rfl)

/-- Settles O48: a name is a register token once it is in upper case. -/
theorem registerNamesResolve : Obligations.RegisterNamesResolve := by
  refine ⟨fun i => ⟨resolveName_digits i rfl, resolveName_digits i rfl⟩,
    fun name i => resolveName_ok_iff.trans Asm.registerToken?_eq_some_iff,
    fun name h => resolveName_ok_iff.mpr (Asm.registerToken?_eq_some_iff.mpr (.inr ⟨rfl, h⟩)),
    fun name s v h => ?_, fun name i s v h => ?_⟩
  · rw [readRegisterByName, writeRegisterByName, resolveName_eq_error h]
    exact ⟨rfl, rfl⟩
  · rw [readRegisterByName, writeRegisterByName, readRegister, writeRegister, h, checkIndex_val]
    exact ⟨rfl, rfl⟩

end Sys2Proof.Machine
end

section
/-! Proofs of the family other, construction and the host's accessors: loading, the launch state, pre-configuration
pairs, and runs of a constructed program (70_reset_and_hazards.md section 1; 10_state.md sections 2, 9, 10;
60_exceptions.md section 2). -/

namespace Sys2Proof.Machine

/-! ### Decoding a whole program -/

section
variable {α : Type} {dec : α → Except Malformed Instr}

/-- A program that decodes is decoded entry by entry. -/
theorem map_of_decodeAll_ok {k : Nat} {entries : List α} {is : List Instr} (h : decodeAll dec k entries = .ok is) :
    entries.map dec = is.map .ok := by
  induction entries generalizing k is with
  | nil => cases h; rfl
  | cons entry rest ih =>
    unfold decodeAll at h
    split at h
    · cases h
    · next i hi =>
      split at h
      · cases h
      · next js hjs =>
        cases h
        rw [List.map_cons, List.map_cons, hi, ih hjs]

/-- The first entry that does not decode is named, whatever follows it. -/
theorem decodeAll_of_bad_entry {k : Nat} {good rest : List α} {bad : α} {e : Malformed}
    (hgood : ∀ x ∈ good, ∃ i, dec x = .ok i) (hbad : dec bad = .error e) :
    decodeAll dec k (good ++ bad :: rest) = .error (.malformedInstruction (k + good.length) e) := by
  induction good generalizing k with
  | nil => simp [decodeAll, hbad]
  | cons x good ih =>
    obtain ⟨i, hi⟩ := hgood x (by simp)
    have hrest := ih (k := k + 1) fun y hy => hgood y (by simp [hy])
    simp only [List.cons_append, decodeAll, hi, hrest, List.length_cons]
    congr 2
    omega

/-- A program whose entries all decode, decodes. -/
theorem exists_decodeAll (k : Nat) {entries : List α} (h : ∀ x ∈ entries, ∃ i, dec x = .ok i) :
    ∃ is, decodeAll dec k entries = .ok is := by
  induction entries generalizing k with
  | nil => exact ⟨[], rfl⟩
  | cons entry rest ih =>
    obtain ⟨i, hi⟩ := h entry (by simp)
    obtain ⟨is, his⟩ := ih (k + 1) fun x hx => h x (by simp [hx])
    exact ⟨i :: is, by simp only [decodeAll, hi, his]⟩

theorem forall_of_decodeAll_ok {k : Nat} {entries : List α} {is : List Instr} (h : decodeAll dec k entries = .ok is) :
    ∀ x ∈ entries, ∃ i, dec x = .ok i := by
  intro x hx
  have hmem : dec x ∈ is.map Except.ok := map_of_decodeAll_ok h ▸ List.mem_map_of_mem hx
  obtain ⟨i, -, hi⟩ := List.mem_map.mp hmem
  exact ⟨i, hi.symm⟩

end

/-! ### The launch state -/

/-- The state that launching a program reaches before its pairs are applied (rule R240, steps 3 to 5). -/
def launchState (prog : List InsnWord) : Option Randomisation → State
  | some r => randomise r { State.reset with prog := prog }
  | none => { State.reset with prog := prog }

theorem launch_eq (prog : List InsnWord) (o : LaunchOptions) :
    launch prog o = preconfigure (launchState prog o.randomisation) o.pairs := by
  obtain ⟨r, ps⟩ := o
  cases r <;> rfl

theorem wf_randomise_mem (r : Randomisation) (s : State) : (randomise r s).mem.wf :=
  (Memory.wf_ofBytes r.bytes.toList 0 (by simp)).1

theorem isLaunchState_launchState (prog : List InsnWord) (r : Option Randomisation) :
    IsLaunchState prog (launchState prog r) := by
  cases r with
  | none => exact ⟨rfl, rfl, Memory.wf_nil⟩
  | some r => exact ⟨rfl, rfl, wf_randomise_mem r _⟩

theorem inv_of_isLaunchState {prog : List InsnWord} {s : State} (h : IsLaunchState prog s) (hlegal : LegalProgram prog)
    (hlen : prog.length ≤ 2 ^ 32) : Inv s := by
  obtain ⟨hpc, rfl, hmem⟩ := h
  exact ⟨by rw [hpc]; rfl, hmem, hlegal, hlen⟩

/-- Construction from a legal program is the launch; from any other program there is none. -/
theorem construct_of_legal {words : List InsnWord} (h : LegalProgram words) (o : LaunchOptions) :
    construct words o = preconfigure (launchState words o.randomisation) o.pairs := by
  obtain ⟨is, his⟩ := exists_decodeAll 0 h
  rw [construct, his, ← launch_eq]

theorem construct_ok {words : List InsnWord} {o : LaunchOptions} {s : State} (h : construct words o = .ok s) :
    LegalProgram words ∧ preconfigure (launchState words o.randomisation) o.pairs = .ok s := by
  unfold construct at h
  split at h
  · cases h
  · next is his => exact ⟨forall_of_decodeAll_ok his, launch_eq words o ▸ h⟩

theorem constructText_ok {lines : List AsmLine} {o : LaunchOptions} {s : State} (h : constructText lines o = .ok s) :
    ∃ is, decodeAll Asm.asmDecode 0 lines = .ok is ∧
      preconfigure (launchState (is.map encode) o.randomisation) o.pairs = .ok s := by
  unfold constructText at h
  split at h
  · cases h
  · next is his => exact ⟨is, his, launch_eq _ o ▸ h⟩

theorem constructText_of_decodeAll {lines : List AsmLine} {is : List Instr}
    (h : decodeAll Asm.asmDecode 0 lines = .ok is) (o : LaunchOptions) :
    constructText lines o = preconfigure (launchState (is.map encode) o.randomisation) o.pairs := by
  rw [constructText, h, ← launch_eq]

/-- Settles O41: without options the launch state itself is constructed. -/
theorem constructionReachesLaunchState : Obligations.ConstructionReachesLaunchState := by
  intro words hlegal hlen
  have hlaunch := isLaunchState_launchState words none
  refine ⟨launchState words none, construct_of_legal hlegal _, rfl, rfl, rfl, inv_of_isLaunchState hlaunch hlegal hlen,
    fun hne => ?_, fun hnil => ?_⟩
  · rw [State.running_iff]
    exact Nat.mul_pos (by decide) (List.length_pos_iff.mpr hne)
  · subst hnil
    rfl

theorem State.eq_of_fields {s t : State} (hregs : s.regs = t.regs) (hpc : s.pc = t.pc) (hmem : s.mem = t.mem)
    (hprog : s.prog = t.prog) : s = t := by
  cases s
  cases t
  rw [State.mk.injEq]
  exact ⟨hregs, hpc, hmem, hprog⟩

/-- The registers and bytes of a state, as the values of a randomisation. -/
def randomisationOf (s : State) : Randomisation := ⟨s.regs, memorySnapshot s⟩

theorem randomise_randomisationOf {s t : State} (hm : s.mem.wf) (hpc : t.pc = s.pc) (hprog : t.prog = s.prog) :
    randomise (randomisationOf s) t = s := by
  have hmem : (randomise (randomisationOf s) t).mem = s.mem := by
    refine (Memory.eq_iff_read_eq (wf_randomise_mem _ t) hm).mpr fun a ha => ?_
    rw [randomise_mem, Memory.read_ofBytes_toList _ ha]
    simp [randomisationOf, memorySnapshot]
  exact State.eq_of_fields rfl hpc hmem hprog

/-- Settles O42: the randomisation that reaches a launch state is the one with its values. -/
theorem launchValuesAreArbitrary : Obligations.LaunchValuesAreArbitrary := by
  intro words s hlegal
  constructor
  · rintro ⟨hpc, hprog, hmem⟩
    refine ⟨randomisationOf s, (construct_of_legal hlegal _).trans (congrArg Except.ok ?_)⟩
    exact randomise_randomisationOf hmem hpc.symm hprog.symm
  · rintro ⟨r, hr⟩
    obtain ⟨-, hpre⟩ := construct_ok hr
    obtain rfl := Except.ok.inj hpre
    exact isLaunchState_launchState words (some r)

/-! ### Bad entries -/

/-- Settles O44: decoding the program is the first thing construction does. -/
theorem loadingAbortsOnFirstBadEntry : Obligations.LoadingAbortsOnFirstBadEntry := by
  refine ⟨fun good rest w o hgood hbad => ?_, fun good rest line o hgood hbad => ?_⟩
  · rw [construct, decodeAll_of_bad_entry hgood (decode_eq_error hbad), Nat.zero_add]
  · rw [constructText, validateProgram, decodeAll_of_bad_entry hgood (Asm.asmDecode_eq_error hbad), Nat.zero_add]
    exact ⟨rfl, rfl⟩

/-! ### Pre-configuration pairs -/

theorem preconfigure_singleton (s : State) (p : Location × Word) : preconfigure s [p] = applyPair s p := by
  rw [preconfigure]
  cases applyPair s p <;> rfl

theorem preconfigure_append {s t : State} {ps : List (Location × Word)} (h : preconfigure s ps = .ok t)
    (qs : List (Location × Word)) : preconfigure s (ps ++ qs) = preconfigure t qs := by
  induction ps generalizing s with
  | nil => cases h; rfl
  | cons p ps ih =>
    rw [preconfigure] at h
    rw [List.cons_append, preconfigure]
    cases hp : applyPair s p with
    | error f => rw [hp] at h; cases h
    | ok u => rw [hp] at h; exact ih h

/-- What pairs that go through change and what they do not. -/
theorem preconfigure_frame {s t : State} {ps : List (Location × Word)} (h : preconfigure s ps = .ok t) :
    t.pc = s.pc ∧ t.prog = s.prog ∧ (s.mem.wf → t.mem.wf) := by
  induction ps generalizing s with
  | nil => cases h; exact ⟨rfl, rfl, id⟩
  | cons p ps ih =>
    rw [preconfigure] at h
    cases hp : applyPair s p with
    | error f => rw [hp] at h; cases h
    | ok u =>
      rw [hp] at h
      obtain ⟨hpc, hprog, hmem⟩ := ih h
      have heff := applyPair_effect hp
      exact ⟨hpc.trans heff.pc_eq, hprog.trans heff.prog_eq, fun hs => hmem (heff.memWf hs)⟩

/-- Construction gives the program its words. -/
theorem prog_of_preconfigure_launchState {words : List InsnWord} {r : Option Randomisation} {s : State}
    {ps : List (Location × Word)} (h : preconfigure (launchState words r) ps = .ok s) : s.prog = words :=
  (preconfigure_frame h).2.1.trans (isLaunchState_launchState words r).2.1

/-! ### Text and words -/

/-- The words of a program given as text decode to what its lines decode to. -/
theorem map_decode_encode_of_text {lines : List AsmLine} {is : List Instr}
    (h : decodeAll Asm.asmDecode 0 lines = .ok is) : (is.map encode).map decode = lines.map Asm.asmDecode := by
  have hlines := map_of_decodeAll_ok h
  rw [hlines, List.map_map]
  refine List.map_congr_left fun i hi => decode_encode ?_
  have hmem : Except.ok i ∈ lines.map Asm.asmDecode := hlines ▸ List.mem_map_of_mem hi
  obtain ⟨line, -, hline⟩ := List.mem_map.mp hmem
  exact Asm.wellFormed_of_asmDecode hline

/-- Settles O60: line `k` decodes to a well-formed instruction, whose word is entry `k`. -/
theorem textAndWordProgramsAgree : Obligations.TextAndWordProgramsAgree := by
  intro lines o s h
  obtain ⟨is, his, hpre⟩ := constructText_ok h
  have hprog := prog_of_preconfigure_launchState hpre
  have hmap : s.prog.map decode = lines.map Asm.asmDecode := hprog ▸ map_decode_encode_of_text his
  have hlegal : LegalProgram s.prog := fun w hw => by
    have hmem : decode w ∈ lines.map Asm.asmDecode := hmap ▸ List.mem_map_of_mem hw
    obtain ⟨line, hline, heq⟩ := List.mem_map.mp hmem
    obtain ⟨i, hi⟩ := forall_of_decodeAll_ok his line hline
    exact ⟨i, by rw [← heq, hi]⟩
  refine ⟨?_, by simpa using congrArg List.length hmap, fun k hk hk' => ?_⟩
  · rw [construct_of_legal hlegal, hprog, hpre]
  · simpa [hk, hk'] using congrArg (·[k]?) hmap

/-! ### Runs of a constructed program -/

/-- The invariant and the program of every state that a run reaches. -/
theorem Reaches.inv {s t : State} (h : Reaches s t) (hs : Inv s) : Inv t ∧ t.prog = s.prog := by
  induction h with
  | refl s => exact ⟨hs, rfl⟩
  | step first _ ih =>
    obtain ⟨ht, hprog⟩ := ih (hs.afterStep first)
    exact ⟨ht, hprog.trans (step_prog first)⟩

/-- A step from a state that meets the invariant faults beyond the end of the program or on an address. -/
theorem runTimeFault_of_inv {s : State} (hs : Inv s) {f : Fault} (h : step s = .fault f) : RunTimeFault f := by
  obtain ⟨-, hf⟩ | ⟨-, hf⟩ | ⟨hlt, -, ⟨i, hd, hf⟩ | ⟨e, hd, -⟩⟩ := fetch_cases s
  · rw [step, hf] at h
    cases h
  · rw [step, hf] at h
    cases h
    trivial
  · rw [step_of_fetch_instr hf] at h
    obtain ⟨addr, rfl | rfl⟩ := exec_fault_of_wellFormed (wellFormed_of_decode hd) h <;> trivial
  · obtain ⟨i, hi⟩ := hs.legal _ (List.getElem_mem hlt)
    rw [hi] at hd
    cases hd

theorem inv_of_construct {words : List InsnWord} {o : LaunchOptions} {s : State} (hlen : words.length ≤ 2 ^ 32)
    (h : construct words o = .ok s) : Inv s ∧ s.prog = words := by
  obtain ⟨hlegal, hpre⟩ := construct_ok h
  have hlaunch := inv_of_isLaunchState (isLaunchState_launchState words o.randomisation) hlegal hlen
  obtain ⟨hpc, hprog, hmem⟩ := preconfigure_frame hpre
  exact ⟨hlaunch.update (hpc ▸ hlaunch.pcAligned) (hmem hlaunch.memWf) hprog, prog_of_preconfigure_launchState hpre⟩

/-- Settles O40: construction establishes the invariant, and every step keeps it. -/
theorem constructedProgramRunsSafely : Obligations.ConstructedProgramRunsSafely := by
  intro words o s t hlen hc hr
  obtain ⟨hs, hprog⟩ := inv_of_construct hlen hc
  obtain ⟨ht, hprog'⟩ := hr.inv hs
  exact ⟨ht, hprog'.trans hprog, step_not_refused t, fun f => runTimeFault_of_inv ht⟩

/-! ### The host's register accessors -/

theorem checkIndex_outside {k : Int} (h : k < 0 ∨ 31 < k) : checkIndex k = .error (.indexOutOfRange k) :=
  dif_neg (by omega)

theorem writeRegister_val (s : State) (i : RegIndex) (v : Word) : writeRegister s i.val v = .ok (s.setX i v) := by
  rw [writeRegister, checkIndex_val]

theorem readRegister_val (s : State) (i : RegIndex) : readRegister s i.val = .ok (s.x i) := by
  rw [readRegister, checkIndex_val]

theorem State.x_setX_same (s : State) (i : RegIndex) (v : Word) : (s.setX i v).x i = if i = 31 then 0 else v := by
  split
  · next h => subst h; rfl
  · next h => exact s.x_setX_self v h

/-- A written register changes nothing but itself. -/
theorem State.setX_frame (s : State) (i : RegIndex) (v : Word) : SameRegsExcept i s (s.setX i v) ∧
    SameMem s (s.setX i v) ∧ (s.setX i v).pc = s.pc ∧ (s.setX i v).prog = s.prog :=
  ⟨fun _ hr => s.x_setX_other v hr, fun a => by rw [s.setX_mem], s.setX_pc i v, s.setX_prog i v⟩

/-- Settles O47: the two outcomes of the index check, and a read after the write of one register. -/
theorem registerAccessorsCheckIndex : Obligations.RegisterAccessorsCheckIndex := by
  intro s k v
  refine ⟨fun h => ?_, fun i hk => ?_⟩
  · rw [writeRegister, readRegister, checkIndex_outside h]
    exact ⟨rfl, rfl⟩
  · subst hk
    exact ⟨readRegister_val s i, s.setX i v, writeRegister_val s i v,
      (readRegister_val _ i).trans (congrArg Except.ok (s.x_setX_same i v)), s.setX_frame i v⟩

/-! ### Pairs that fail and pairs that are overwritten -/

/-- Settles O46: a pair that fails ends the pairs with its fault, and that is the fault of its accessor's check. -/
theorem failingPairFailsConstruction : Obligations.FailingPairFailsConstruction := by
  intro words o s p later h
  obtain ⟨hlegal, hpre⟩ := construct_ok h
  refine ⟨fun f hf => ?_, fun addr v hp ha => ?_, fun addr v hp ha hout => ?_, fun k v hp hk => ?_⟩
  · rw [construct_of_legal hlegal, preconfigure_append hpre, preconfigure, hf]
  · subst hp
    exact writeDoubleWord_of_check_error (checkDouble_misaligned ha) s v
  · subst hp
    exact writeDoubleWord_of_check_error (checkDouble_outside ha hout) s v
  · subst hp
    rw [applyPair, writeRegister, checkIndex_outside hk]

/-- The states `s` and `t` agree on everything but the register or the double word at `loc`. -/
structure AgreeExcept (loc : Location) (s t : State) : Prop where
  pc : s.pc = t.pc
  prog : s.prog = t.prog
  wfLeft : s.mem.wf
  wfRight : t.mem.wf
  regs : ∀ r : RegIndex, loc ≠ .register r.val → s.x r = t.x r
  mem : ∀ c : Nat, (∀ a, loc = .memory a → (c : Int) < a ∨ a + 8 ≤ c) → s.mem.read c = t.mem.read c

theorem AgreeExcept.refl (loc : Location) {s : State} (hs : s.mem.wf) : AgreeExcept loc s s :=
  ⟨rfl, rfl, hs, hs, fun _ _ => rfl, fun _ _ => rfl⟩

theorem AgreeExcept.symm {loc : Location} {s t : State} (h : AgreeExcept loc s t) : AgreeExcept loc t s :=
  ⟨h.pc.symm, h.prog.symm, h.wfRight, h.wfLeft, fun r hr => (h.regs r hr).symm, fun c hc => (h.mem c hc).symm⟩

/-- A pair changes its own location only. -/
theorem agreeExcept_applyPair {s t : State} {loc : Location} {v : Word} (h : applyPair s (loc, v) = .ok t)
    (hs : s.mem.wf) : AgreeExcept loc t s where
  pc := (applyPair_effect h).pc_eq
  prog := (applyPair_effect h).prog_eq
  wfLeft := (applyPair_effect h).memWf hs
  wfRight := hs
  regs r hr := by simp [(applyPair_reads h hs).1 r, hr]
  mem c hc := by
    rw [(applyPair_reads h hs).2 c]
    cases loc with
    | register k => rfl
    | memory a =>
      have := hc a rfl
      exact if_neg (by omega)

/-- One pair applied to two states that agree outside a location. -/
theorem AgreeExcept.afterPair {loc : Location} {s t s' t' : State} (h : AgreeExcept loc s t) {p : Location × Word}
    (hs : applyPair s p = .ok s') (ht : applyPair t p = .ok t') : AgreeExcept loc s' t' where
  pc := by rw [(applyPair_effect hs).pc_eq, (applyPair_effect ht).pc_eq, h.pc]
  prog := by rw [(applyPair_effect hs).prog_eq, (applyPair_effect ht).prog_eq, h.prog]
  wfLeft := (applyPair_effect hs).memWf h.wfLeft
  wfRight := (applyPair_effect ht).memWf h.wfRight
  regs r hr := by rw [(applyPair_reads hs h.wfLeft).1 r, (applyPair_reads ht h.wfRight).1 r, h.regs r hr]
  mem c hc := by
    obtain ⟨loc', v⟩ := p
    rw [(applyPair_reads hs h.wfLeft).2 c, (applyPair_reads ht h.wfRight).2 c]
    cases loc' <;> simp only [h.mem c hc]

/-- States that agree outside a location are one state once the location is written. -/
theorem AgreeExcept.eq_afterPair {loc : Location} {s t s' t' : State} (h : AgreeExcept loc s t) {w : Word}
    (hs : applyPair s (loc, w) = .ok s') (ht : applyPair t (loc, w) = .ok t') : s' = t' := by
  have h' := h.afterPair hs ht
  have hregs : s'.regs = t'.regs := by
    refine State.regs_ext fun r => ?_
    by_cases hr : loc = .register r.val
    · by_cases h31 : r = 31
      · subst h31
        rw [State.x_zeroReg, State.x_zeroReg]
      · simp [(applyPair_reads hs h.wfLeft).1 r, (applyPair_reads ht h.wfRight).1 r, hr, h31]
    · exact h'.regs r hr
  have hmem : s'.mem = t'.mem := by
    refine Memory.ext_of_read h'.wfLeft h'.wfRight fun c => ?_
    cases loc with
    | register k => exact h'.mem c nofun
    | memory a =>
      by_cases hc : a ≤ (c : Int) ∧ (c : Int) < a + 8
      · simp only [(applyPair_reads hs h.wfLeft).2 c, (applyPair_reads ht h.wfRight).2 c, if_pos hc]
      · exact h'.mem c fun b hb => by cases hb; omega
  exact State.eq_of_fields hregs h'.pc hmem h'.prog

theorem preconfigure_cons_ok {s t : State} {p : Location × Word} {ps : List (Location × Word)} :
    preconfigure s (p :: ps) = .ok t ↔ ∃ u, applyPair s p = .ok u ∧ preconfigure u ps = .ok t := by
  rw [preconfigure]
  cases applyPair s p <;> simp

theorem preconfigure_append_ok {s t : State} {ps qs : List (Location × Word)} :
    preconfigure s (ps ++ qs) = .ok t ↔ ∃ u, preconfigure s ps = .ok u ∧ preconfigure u qs = .ok t := by
  induction ps generalizing s with
  | nil => simp [preconfigure]
  | cons p ps ih =>
    simp only [List.cons_append, preconfigure_cons_ok, ih]
    constructor
    · rintro ⟨v, hv, u, hu, ht⟩
      exact ⟨u, ⟨v, hv, hu⟩, ht⟩
    · rintro ⟨u, ⟨v, hv, hu⟩, ht⟩
      exact ⟨v, hv, u, hu, ht⟩

/-- Pairs applied to two states that agree outside a location: they go through on both or on neither. -/
theorem AgreeExcept.afterPairs {loc : Location} {s t s' : State} (h : AgreeExcept loc s t)
    {ps : List (Location × Word)} (hs : preconfigure s ps = .ok s') :
    ∃ t', preconfigure t ps = .ok t' ∧ AgreeExcept loc s' t' := by
  induction ps generalizing s t with
  | nil => cases hs; exact ⟨t, rfl, h⟩
  | cons p ps ih =>
    obtain ⟨u, hu, hs'⟩ := preconfigure_cons_ok.mp hs
    obtain ⟨v, hv⟩ := applyPair_ok_of_ok hu t p.2
    obtain ⟨t', ht', hagree⟩ := ih (h.afterPair hu hv) hs'
    exact ⟨t', preconfigure_cons_ok.mpr ⟨v, hv, ht'⟩, hagree⟩

/-- Pairs that end with a write of a location give one state from two states that agree outside the location. -/
theorem AgreeExcept.preconfigure_eq {loc : Location} {s s' t : State} (h : AgreeExcept loc s s')
    {ps : List (Location × Word)} {w : Word} (hs : preconfigure s (ps ++ [(loc, w)]) = .ok t) :
    preconfigure s' (ps ++ [(loc, w)]) = .ok t := by
  obtain ⟨u, hu, hw⟩ := preconfigure_append_ok.mp hs
  obtain ⟨u', hu', hagree⟩ := h.afterPairs hu
  rw [preconfigure_singleton] at hw
  obtain ⟨t', hw'⟩ := applyPair_ok_of_ok hw u' w
  rw [preconfigure_append hu', preconfigure_singleton, hw', hagree.eq_afterPair hw hw']

/-- An earlier pair for the location of the last one makes no difference, whatever pairs stand between. -/
theorem preconfigure_overwritten {s t : State} (hs : s.mem.wf) (loc : Location) (v w : Word)
    (between : List (Location × Word)) :
    preconfigure s ((loc, v) :: between ++ [(loc, w)]) = .ok t ↔ preconfigure s (between ++ [(loc, w)]) = .ok t := by
  rw [List.cons_append, preconfigure_cons_ok]
  constructor
  · rintro ⟨u, hu, ht⟩
    exact (agreeExcept_applyPair hu hs).preconfigure_eq ht
  · intro ht
    obtain ⟨u, -, hw⟩ := preconfigure_append_ok.mp ht
    rw [preconfigure_singleton] at hw
    obtain ⟨u', hu'⟩ := applyPair_ok_of_ok hw s v
    exact ⟨u', hu', (agreeExcept_applyPair hu' hs).symm.preconfigure_eq ht⟩

/-- The fault of a pair is that of the check of its location. -/
theorem applyPair_error_of_error {s : State} {loc : Location} {v : Word} {f : Fault}
    (h : applyPair s (loc, v) = .error f) (w : Word) : applyPair s (loc, w) = .error f := by
  cases loc with
  | register k =>
    simp only [applyPair, writeRegister] at h ⊢
    split at h <;> cases h
    rfl
  | memory a =>
    simp only [applyPair, writeDoubleWord] at h
    split at h <;> cases h
    next hm => exact writeDoubleWord_of_check_error (memWrite_error_check hm) s w

theorem preconfigure_twice {s : State} (hs : s.mem.wf) (loc : Location) (v w : Word) :
    preconfigure s [(loc, v), (loc, w)] = preconfigure s [(loc, w)] := by
  have hover := fun t => preconfigure_overwritten (t := t) hs loc v w []
  simp only [List.cons_append, List.nil_append] at hover
  cases hw : preconfigure s [(loc, w)] with
  | ok t => exact (hover t).mpr hw
  | error f =>
    rw [preconfigure_singleton] at hw
    rw [preconfigure, applyPair_error_of_error hw v]

/-- Settles O45: a pair is its accessor's write, and agreement outside a location is kept until the location is
written. -/
theorem laterPairForSameLocationWins : Obligations.LaterPairForSameLocationWins := by
  refine ⟨fun s k v => preconfigure_singleton s _, fun s a v => preconfigure_singleton s _, fun s v => rfl,
    fun s t ps qs h => preconfigure_append h qs, fun words r ps s h => ?words, fun lines r ps s h => ?lines,
    fun s u ps i w h => ?register, fun s u ps a w hs h ha h0 h1 => ?memory,
    fun s loc v w hs => preconfigure_twice hs loc v w,
    fun s t loc v w between hs => preconfigure_overwritten hs loc v w between⟩
  case words =>
    obtain ⟨hlegal, hpre⟩ := construct_ok h
    obtain rfl := Except.ok.inj hpre
    exact construct_of_legal hlegal _
  case lines =>
    obtain ⟨is, his, hpre⟩ := constructText_ok h
    obtain rfl := Except.ok.inj hpre
    exact constructText_of_decodeAll his _
  case register =>
    refine ⟨u.setX i w, ?_, fun hi => u.x_setX_self w hi, State.x_zeroReg _, u.setX_frame i w⟩
    rw [preconfigure_append h, preconfigure_singleton]
    exact writeRegister_val u i w
  case memory =>
    have hu : u.mem.wf := (preconfigure_frame h).2.2 hs
    have hw := memWrite_inside ha h0 h1 u.mem w
    refine ⟨u.setMem (u.mem.writeDouble a.toNat w), ?_, ?_, wf_memWrite hw hu,
      fun _ hc => read_memWrite_outside hw hu hc, u.setMem_x _, rfl, rfl⟩
    · rw [preconfigure_append h, preconfigure_singleton]
      exact writeDoubleWord_inside ha h0 h1 u w
    · have hfit : a.toNat + 8 ≤ Config.memSize := by
        show a.toNat + 8 ≤ 256
        omega
      rw [readDoubleWord, memRead_inside ha h0 h1, State.setMem_mem, Memory.readDouble_writeDouble w hu hfit]

end Sys2Proof.Machine
end
